-- ==== Sys2Proof/Word.lean ====
section
/-!
DEFINITION. Sys2Proof/Word.lean: the byte, the block's enumerations (10_state.md R21 to R29, 30_encoding.md
R64) and the shapes of the words its ports carry (30_encoding.md R60, R62, R65, R66).
-/

namespace Sys2Proof

/-- One Frame Buffer byte: 8 bits, unsigned (00_scope.md R9). -/
abbrev Byte := BitVec 8

/-- `session`, the overall transmission phase (R21). Code 11 of R64 is reserved and no value here (R68). -/
inductive Session where
  | idle
  | sending
  | resetGap
  deriving DecidableEq, Repr

/-- `bit_phase`, the sub-phase for streaming each bit (R22). -/
inductive BitPhase where
  | idle
  | startBit
  | sending
  | nextBit
  deriving DecidableEq, Repr

/-- A frame bit, and the type of `current_bit` (R23). -/
inductive FrameBit where
  | zero
  | one
  deriving DecidableEq, Repr

/-- `half`, the part of a bit window being driven (R24). -/
inductive Half where
  | high
  | low
  deriving DecidableEq, Repr

/-- A level of the GPIO line, and the type of `line` (R29). -/
inductive Level where
  | low
  | high
  deriving DecidableEq, Repr

/-- One presentation at the host port: the operation code and every operand signal of R66. The widths of
`h_addr` and `h_len` depend on the configuration, so both are held as natural numbers (R27, log 9). -/
structure HostWord where
  hOp : BitVec 2
  hAddr : Nat
  hData : Byte
  hLen : Nat
  deriving DecidableEq, Repr

/-- What an operation looks like before it is decoded, one constructor per format of R60 that has a word of
its own: the one-bit reset input, a host-port word, a tick selector, the levels of a line symbol. -/
inductive PortWord where
  | reset (level : BitVec 1)
  | host (w : HostWord)
  | tick (sel : BitVec 4)
  | symbol (levels : BitVec 10)
  deriving DecidableEq, Repr

/-- Why a word decodes to no operation. Raised by `decode` alone; safe, since the model stops. -/
inductive DecodeError where
  /-- The reset input is 0: no operation is asked for (R60, R130). -/
  | resetNotAsserted
  /-- The selector is 11xx, reserved and unreachable (R65, R68). -/
  | reservedSelector (sel : BitVec 4)
  /-- The ten levels are neither row of the pulse table (R62). -/
  | notASymbol (levels : BitVec 10)
  deriving DecidableEq, Repr

end Sys2Proof
end

