-- ==== Sys2Proof/Config.lean ====
section
/-!
DEFINITION. Sys2Proof/Config.lean: the constants the source fixes (00_scope.md R7) and the parameters it
leaves to the implementation (R8), which the model never fixes (93_implementation_defined.md section 3).
-/

namespace Sys2Proof

/-! ## Constants of R7, in ticks, bits and bytes -/

/-- `T0H`: passes a Zero bit is driven HIGH. -/
def Config.t0h : Nat := 3

/-- `T0L`: passes a Zero bit is driven LOW. -/
def Config.t0l : Nat := 7

/-- `T1H`: passes a One bit is driven HIGH. -/
def Config.t1h : Nat := 7

/-- `T1L`: passes a One bit is driven LOW. -/
def Config.t1l : Nat := 3

/-- `BIT_WINDOW`: passes in a bit window. -/
def Config.bitWindow : Nat := 10

/-- `BITS_PER_LED`. -/
def Config.bitsPerLed : Nat := 24

/-- `BYTES_PER_LED`. -/
def Config.bytesPerLed : Nat := 3

/-- `RESET_MIN_TICKS`: the least length of a reset gap. -/
def Config.resetMinTicks : Nat := 40

/-! ## Parameters of R8 -/

/-- A choice of the parameters of R8, each given as its excess over the least legal value, so that every
value of this structure meets the constraints of R8 (premise `ParamsOk` of R148) and none is left out. -/
structure Params where
  /-- `MAX_LEDS - 1`. -/
  spareLeds : Nat
  /-- `BUF_CAP - 3*MAX_LEDS`. -/
  spareBytes : Nat
  /-- `RESET_TICKS - 40`. -/
  spareGap : Nat
  /-- `W_IDX` less the smallest width with `2^W_IDX > 8*BUF_CAP`. -/
  spareWidth : Nat
  /-- `buf_init`: what a Frame Buffer byte holds after reset (D17). -/
  bufInit : Nat → Byte

/-- `MAX_LEDS >= 1`. -/
def Params.maxLeds (P : Params) : Nat := P.spareLeds + 1

/-- `BUF_CAP >= 3*MAX_LEDS`, in bytes. -/
def Params.bufCap (P : Params) : Nat := P.spareBytes + Config.bytesPerLed * P.maxLeds

/-- `RESET_TICKS >= 40`. -/
def Params.resetTicks (P : Params) : Nat := P.spareGap + Config.resetMinTicks

/-- `W_IDX`, with `2^W_IDX > 8*BUF_CAP`. -/
def Params.wIdx (P : Params) : Nat := P.spareWidth + (Nat.log2 (8 * P.bufCap) + 1)

/-- How far `MAX_LEDS` exceeds 1. OPEN in the spec (D7): no body, so nothing can be proved of its value. -/
opaque Config.spareLeds : Nat

/-- How far `BUF_CAP` exceeds `3*MAX_LEDS` (D7): no body. -/
opaque Config.spareBytes : Nat

/-- How far `RESET_TICKS` exceeds 40. OPEN in the spec (D5): no body. -/
opaque Config.spareGap : Nat

/-- How far `W_IDX` exceeds the smallest legal width (D8): no body. -/
opaque Config.spareWidth : Nat

/-- `buf_init`, the unconstrained content of the Frame Buffer after reset (R31, D17): no body. It is what an
unlisted byte of the model's memory reads as. -/
opaque Config.bufInit : Nat → Byte

/-- The parameters of the machine that `exec` and `step` run. -/
def Config.params : Params :=
  { spareLeds := Config.spareLeds, spareBytes := Config.spareBytes, spareGap := Config.spareGap,
    spareWidth := Config.spareWidth, bufInit := Config.bufInit }

end Sys2Proof
end

