-- ==== Sys2Proof/Machine/Operands.lean ====
section
/-!
DEFINITION. Sys2Proof/Machine/Operands.lean: the derived operands of 30_encoding.md R67, all unsigned.
-/

namespace Sys2Proof.Machine

/-- `active_bit_count` that `ARM` writes: `led_count * 24`. -/
def armBits (ledCount : Nat) : Nat := Config.bitsPerLed * ledCount

/-- Number of bytes that `ARM` copies: `led_count * 3`. -/
def armBytes (ledCount : Nat) : Nat := Config.bytesPerLed * ledCount

/-- Byte index of frame bit `k`: `k / 8` (20_memory.md R41). -/
def byteIndex (k : Nat) : Nat := k / 8

/-- Bit offset of frame bit `k` in its byte: `k % 8`. -/
def bitOffset (k : Nat) : Nat := k % 8

/-- Capacity of the Frame Buffer in bits, `8*BUF_CAP` (70 R138, conflict C6). -/
def bufBits (P : Params) : Nat := 8 * P.bufCap

/-- Bit `off` of a byte, bit 0 the least significant: `(b >> off) & 1` as Zero or One (00_scope.md R10). -/
def bitOf (b : Byte) (off : Nat) : FrameBit :=
  if (b >>> off) &&& 1#8 = 1#8 then .one else .zero

/-- `threshold(bit, half)`, the pulse table (00_scope.md R7). -/
def threshold : FrameBit → Half → Nat
  | .zero, .high => Config.t0h
  | .zero, .low => Config.t0l
  | .one, .high => Config.t1h
  | .one, .low => Config.t1l

end Sys2Proof.Machine
end

