-- ==== Sys2Proof/Syntax.lean ====
section
/-!
DEFINITION. Sys2Proof/Syntax.lean: the block's operations, which take the place of instructions
(00_scope.md R6): one constructor per row of spec/opcode_table.json.
-/

namespace Sys2Proof

/-- The 14 rows of the operation map (30_encoding.md R72). -/
inductive Instr where
  /-- `RESET` (R130). -/
  | reset
  /-- `POLL` (R84). -/
  | poll
  /-- `BUFWR i, v` (R80). -/
  | bufwr (i : Nat) (v : Byte)
  /-- `SETLEN n` (R81). -/
  | setlen (n : Nat)
  /-- `START` (R82). -/
  | start
  /-- `ARM(led_count, colors)` (R83). -/
  | arm (ledCount : Nat) (colors : List Byte)
  /-- `T_IDLE` (R91). -/
  | tIdle
  /-- `T_ENTRY` (R92). -/
  | tEntry
  /-- `T_STARTBIT` (R93). -/
  | tStartbit
  /-- `T_SHAPE` (R94). -/
  | tShape
  /-- `T_NEXTBIT` (R95). -/
  | tNextbit
  /-- `T_GAP` (R96). -/
  | tGap
  /-- `SYM0`, the bit window of a Zero bit (R62). -/
  | sym0
  /-- `SYM1`, the bit window of a One bit (R62). -/
  | sym1
  deriving DecidableEq, Repr

end Sys2Proof
end

