-- ==== Sys2Proof/Decode.lean ====
section
/-!
DEFINITION. Sys2Proof/Decode.lean: the codes of 30_encoding.md R64, the decoder of the four formats that
have words (R60), and the encoder. Decoding is total: every word of every format is an operation or is
rejected by name.
-/

namespace Sys2Proof

/-! ## Codes of the enumerations (R64) -/

/-- `session[1:0]`. -/
def Session.code : Session → BitVec 2
  | .idle => 0b00#2
  | .sending => 0b01#2
  | .resetGap => 0b10#2

/-- `bit_phase[1:0]`. -/
def BitPhase.code : BitPhase → BitVec 2
  | .idle => 0b00#2
  | .startBit => 0b01#2
  | .sending => 0b10#2
  | .nextBit => 0b11#2

/-- Code of `current_bit`. -/
def FrameBit.code : FrameBit → BitVec 1
  | .zero => 0#1
  | .one => 1#1

/-- Code of `half`. -/
def Half.code : Half → BitVec 1
  | .low => 0#1
  | .high => 1#1

/-- Code of `line`. -/
def Level.code : Level → BitVec 1
  | .low => 0#1
  | .high => 1#1

/-- `sel[3:0] = {session[1:0], bit_phase[1:0]}` (R65). -/
def selector (session : Session) (phase : BitPhase) : BitVec 4 := session.code ++ phase.code

/-! ## The tables of the formats -/

/-- Format `tick` (R65): mask, pattern and arm, one entry per row of the table. A selector bit outside the
mask is a don't-care. -/
def tickRows : List (BitVec 4 × BitVec 4 × Instr) :=
  [(0b1100#4, 0b0000#4, .tIdle),
   (0b1111#4, 0b0100#4, .tEntry),
   (0b1111#4, 0b0101#4, .tStartbit),
   (0b1111#4, 0b0110#4, .tShape),
   (0b1111#4, 0b0111#4, .tNextbit),
   (0b1100#4, 0b1000#4, .tGap)]

/-- Format `symbol` (R62): bit 9 is the level of the window's first pass, bit 0 of its tenth; 1 is HIGH. -/
def symbolLevels : FrameBit → BitVec 10
  | .zero => 0b1110000000#10
  | .one => 0b1111111000#10

/-! ## Decoding -/

/-- Format `host` (R66). Operands that the row does not list are ignored. -/
def decodeHost (w : HostWord) : Instr :=
  if w.hOp = 0b00#2 then .poll
  else if w.hOp = 0b01#2 then .bufwr w.hAddr w.hData
  else if w.hOp = 0b10#2 then .setlen w.hLen
  else .start

/-- Format `tick` (R65); 11xx is reserved (R68). -/
def decodeTick (sel : BitVec 4) : Except DecodeError Instr :=
  match tickRows.find? (fun row => sel &&& row.1 == row.2.1) with
  | some row => .ok row.2.2
  | none => .error (.reservedSelector sel)

/-- Format `symbol` (R62). -/
def decodeSymbol (levels : BitVec 10) : Except DecodeError Instr :=
  if levels = symbolLevels .zero then .ok .sym0
  else if levels = symbolLevels .one then .ok .sym1
  else .error (.notASymbol levels)

/-- The operation a word asks for. -/
def decode : PortWord → Except DecodeError Instr
  | .reset level => if level = 1#1 then .ok .reset else .error .resetNotAsserted
  | .host w => .ok (decodeHost w)
  | .tick sel => decodeTick sel
  | .symbol levels => decodeSymbol levels

/-- The operations a sequence of words asks for, or the first rejection. -/
def decodeAll : List PortWord → Except DecodeError (List Instr)
  | [] => .ok []
  | w :: ws =>
    match decode w with
    | .error e => .error e
    | .ok i =>
      match decodeAll ws with
      | .error e => .error e
      | .ok is => .ok (i :: is)

/-! ## Encoding -/

/-- `BUFWR i, b0 ; BUFWR i+1, b1 ; ...` -/
def bufwrs (i : Nat) : List Byte → List Instr
  | [] => []
  | b :: bs => .bufwr i b :: bufwrs (i + 1) bs

/-- The expansion of `ARM(n, colors)`: the `BUFWR`s, `SETLEN 24*n`, `START`, in that order (R71). -/
def armExpansion (ledCount : Nat) (colors : List Byte) : List Instr :=
  bufwrs 0 colors ++ [.setlen (Machine.armBits ledCount), .start]

/-- The operations that have words of their own and that `i` stands for: `i` itself, but for the macro. -/
def primitives : Instr → List Instr
  | .arm n colors => armExpansion n colors
  | i => [i]

/-- The word of an operation that has one (R60); the macro has none (R72). Operand signals the row does not
list, and don't-care selector bits, are 0. -/
def encodeWord : Instr → Option PortWord
  | .reset => some (.reset 1#1)
  | .poll => some (.host { hOp := 0b00#2, hAddr := 0, hData := 0#8, hLen := 0 })
  | .bufwr i v => some (.host { hOp := 0b01#2, hAddr := i, hData := v, hLen := 0 })
  | .setlen n => some (.host { hOp := 0b10#2, hAddr := 0, hData := 0#8, hLen := n })
  | .start => some (.host { hOp := 0b11#2, hAddr := 0, hData := 0#8, hLen := 0 })
  | .arm _ _ => none
  | .tIdle => some (.tick 0b0000#4)
  | .tEntry => some (.tick 0b0100#4)
  | .tStartbit => some (.tick 0b0101#4)
  | .tShape => some (.tick 0b0110#4)
  | .tNextbit => some (.tick 0b0111#4)
  | .tGap => some (.tick 0b1000#4)
  | .sym0 => some (.symbol 0b1110000000#10)
  | .sym1 => some (.symbol 0b1111111000#10)

/-- The words of an operation: one word, or for the macro the words of its expansion (R71, R72). -/
def encode (i : Instr) : List PortWord := (primitives i).filterMap encodeWord

/-! ## The opcode table's numbering -/

/-- A number of fewer than `n` bits as the bits of a format, none where it does not fit. -/
def fits (n w : Nat) : Option (BitVec n) := if w < 2 ^ n then some (BitVec.ofNat n w) else none

/-- The format and word a table row's bits stand for. The widths 1, 2, 4 and 10 name one format each; the
widths in whole bytes do not: 16 bits hold a symbol, and 8 bits a host code (0 to 3) or a tick selector (4
to 15), so that a reset input and the selectors 00xx have a reading only at their own widths (log 19). -/
def tableWord (nbits w : Nat) : Option PortWord :=
  match nbits with
  | 1 => (fits 1 w).map .reset
  | 2 => (fits 2 w).map fun op => .host { hOp := op, hAddr := 0, hData := 0#8, hLen := 0 }
  | 4 => (fits 4 w).map .tick
  | 8 =>
    match fits 2 w with
    | some op => some (.host { hOp := op, hAddr := 0, hData := 0#8, hLen := 0 })
    | none => (fits 4 w).map .tick
  | 10 => (fits 10 w).map .symbol
  | 16 => (fits 10 w).map .symbol
  | _ => none

/-- The operation read from a table row's bits, operand signals being 0. -/
def decodeTableWord (nbits w : Nat) : Option Instr :=
  match tableWord nbits w with
  | none => none
  | some word =>
    match decode word with
    | .ok i => some i
    | .error _ => none

end Sys2Proof
end

