-- ==== Sys2Proof/Machine/State.lean ====
section
/-!
DEFINITION. Sys2Proof/Machine/State.lean: the state of the block (10_state.md R20), the model's own inputs and
observations beside it, the violations of 60_exceptions.md R111, and the state after reset (R35).
-/

namespace Sys2Proof.Machine

/-- The tuple that the spec's vectors write a state as (95_test_vectors.md section 2); what V7 records. -/
structure StateTuple where
  session : Session
  bitPhase : BitPhase
  currentBit : FrameBit
  half : Half
  pulseTicks : Nat
  bitIndex : Nat
  gapTicks : Nat
  line : Level
  deriving DecidableEq, Repr

/-- The two host writes that V2 can be raised by. -/
inductive BusyWrite where
  | bufwr
  | setlen
  deriving DecidableEq, Repr

/-- The violations V1 to V7 with what each records (R111). The hardware has none of them. -/
inductive Violation where
  /-- V1 `REARM_BUSY`: `START` while `session != Idle`; records `session`. -/
  | rearmBusy (session : Session)
  /-- V2 `WRITE_BUSY`: `BUFWR` or `SETLEN` while `session != Idle`; records the operation and `session`. -/
  | writeBusy (op : BusyWrite) (session : Session)
  /-- V3 `LEN_RANGE`: `SETLEN n` with `n > 8*BUF_CAP`, or a fetch of frame bit `n >= 8*BUF_CAP`. -/
  | lenRange (n : Nat)
  /-- V4 `ADDR_RANGE`: `BUFWR` to an index `i >= BUF_CAP`. -/
  | addrRange (i : Nat)
  /-- V5 `ARM_ARGS`: count and colours of an `ARM` do not fit; records both. -/
  | armArgs (ledCount length : Nat)
  /-- V6 `TICK_OVERRUN`: never raised (R111, R140). -/
  | tickOverrun
  /-- V7 `ILLEGAL_STATE`: a tick in a state outside the table of R37; records the state. -/
  | illegalState (state : StateTuple)
  deriving DecidableEq, Repr

/-- Whose operation is next (20_memory.md R48). -/
inductive Turn where
  /-- The reset input is asserted. -/
  | reset
  /-- The foreground context presents its next host-port word. -/
  | foreground
  /-- A timer tick arrives. -/
  | tick
  /-- The ticks of one whole bit window arrive with no host operation between them, and the line shows
  these levels (log 15). -/
  | symbol (levels : BitVec 10)
  deriving DecidableEq, Repr

/-- The state. The first ten fields are the ten items of R20; the others are what the spec gives beside them
or what the model adds to run, each named in INVENTORY.md with its log entry. -/
structure State where
  /-- R21. -/
  session : Session
  /-- R22. -/
  bitPhase : BitPhase
  /-- R23. -/
  currentBit : FrameBit
  /-- R24. -/
  half : Half
  /-- R25. -/
  pulseTicks : Nat
  /-- R26. -/
  bitIndex : Nat
  /-- R28. -/
  gapTicks : Nat
  /-- R29. -/
  line : Level
  /-- R30. -/
  activeBitCount : Nat
  /-- The Frame Buffer (R31): the bytes that differ from `buf_init`, addresses strictly rising. -/
  buf : List Host.Cell
  /-- The result port `h_rdata` of `POLL` (R73). DESIGN CHOICE (log 18): it keeps the last result. -/
  hRdata : BitVec 2
  /-- What the last pass drove, none where it did not touch the line (00_scope.md R10). -/
  driven : Option Level
  /-- The levels driven in the bit window in progress or last closed, first pass first. DESIGN CHOICE
  (log 16): an observation of the model, read by no operation but the one that extends it. -/
  window : List Level
  /-- The sticky violation mark (R112). -/
  violation : Option Violation
  /-- Whether `RESET` has been applied (R130, R132). DESIGN CHOICE (log 4). -/
  booted : Bool
  /-- The host-port words that the foreground context will present, oldest first (log 1). -/
  program : List HostWord
  /-- The turns to come, oldest first; ticks follow where it is used up (log 1, log 2). -/
  schedule : List Turn
  deriving DecidableEq, Repr

/-- The hardware "raises no synchronous exception and has no fault state" (R110): no reason exists. -/
inductive Fault where
  deriving DecidableEq, Repr

/-- Why the model stops. Every one is safe: no next state is claimed. -/
inductive Refusal where
  /-- Raised by an arm of `exec` for an operation that has no meaning yet (no arm does). Safe. -/
  | notModelled (mnemonic : String)
  /-- `raise Violation` (R112), by the operations R111 names, with the unchanged state that keeps the mark;
  also by `step` in a state that carries a mark. Safe. -/
  | violation (v : Violation) (marked : State)
  /-- Raised by a tick arm in a state whose selector picks another arm (R65, R90): no tick executes it.
  Safe. -/
  | armNotSelected
  /-- Raised by `SYM0` and `SYM1` in a state in which the next ten passes do not shape that symbol (R99).
  Safe. -/
  | symbolNotNext
  /-- Raised by `RESET` once it has been applied (R130, N19). Safe. -/
  | secondReset
  /-- Raised by `step` for any operation but `RESET` before `RESET` has been applied (R132). Safe. -/
  | beforeReset
  /-- Raised by `step` for a word that decodes to no operation (R65, R68). Safe. -/
  | undecodable (e : DecodeError)
  deriving DecidableEq, Repr

/-- What an operation answers. -/
abbrev Out := Host.Outcome State Fault Refusal

/-- The state right after `RESET` (R35): no byte listed, so the Frame Buffer reads `buf_init`. The seven
fields that are not items of R20 have the values of log 4, 10, 16, 17, 18 and 1. -/
def State.reset : State :=
  { session := .idle, bitPhase := .idle, currentBit := .zero, half := .high, pulseTicks := 0, bitIndex := 0,
    gapTicks := 0, line := .low, activeBitCount := 0, buf := [], hRdata := 0b00#2, driven := none, window := [],
    violation := none, booted := true, program := [], schedule := [] }

end Sys2Proof.Machine
end

