-- ==== Sys2Proof/Machine/Ops.lean ====
section
/-!
DEFINITION. Sys2Proof/Machine/Ops.lean: the named operations over the Frame Buffer and the state that the
meanings share: memory, sequencing, raising a violation, a pass, driving the line, fetching the next word.
-/

namespace Sys2Proof.Machine

/-! ## Memory: a canonical list of (index, byte) pairs (20_memory.md R40, R44, R45) -/

/-- The byte at index `a`; an unlisted index reads `init a`. -/
def Memory.read (init : Nat → Byte) : List Host.Cell → Nat → Byte
  | [], a => init a
  | (b, v) :: rest, a => if b = a then v else Memory.read init rest a

/-- `m` without any entry for index `a`. -/
def Memory.erase (m : List Host.Cell) (a : Nat) : List Host.Cell := m.filter fun c => c.1 ≠ a

/-- `m` with the entry `(a, v)` at its place. -/
def Memory.insert : List Host.Cell → Nat → Byte → List Host.Cell
  | [], a, v => [(a, v)]
  | (b, w) :: rest, a, v =>
    if a < b then (a, v) :: (b, w) :: rest
    else if a = b then (a, v) :: rest
    else (b, w) :: Memory.insert rest a v

/-- Storing `v` at index `a`; the value an unlisted index reads as leaves no entry. -/
def Memory.write (init : Nat → Byte) (m : List Host.Cell) (a : Nat) (v : Byte) : List Host.Cell :=
  if v = init a then Memory.erase m a else Memory.insert m a v

/-- The canonical form: indices strictly rising, no entry equal to what an unlisted index reads as. -/
abbrev Memory.wf (init : Nat → Byte) (m : List Host.Cell) : Prop :=
  m.Pairwise (fun x y => x.1 < y.1) ∧ ∀ c ∈ m, c.2 ≠ init c.1

/-- `MemRead(a, 1)` (00_scope.md R10). -/
def readByte (P : Params) (s : State) (a : Nat) : Byte := Memory.read P.bufInit s.buf a

/-- `MemWrite(a, 1, v)`. -/
def writeByte (P : Params) (a : Nat) (v : Byte) (s : State) : State :=
  { s with buf := Memory.write P.bufInit s.buf a v }

/-! ## Sequencing and violations -/

/-- The next operation where this one answered a next state; a stop ends the sequence. -/
def andThen (o : Out) (f : State → Out) : Out :=
  match o with
  | .next s => f s
  | .fault r => .fault r
  | .refused r => .refused r

/-- The state with the violation mark set and nothing else changed. -/
def mark (v : Violation) (s : State) : State := { s with violation := some v }

/-- `raise Violation(v)`: "the operation does not take place, the state keeps a mark" (60 R112). The one
operation that every broken precondition goes through. -/
def raise (v : Violation) (s : State) : Out := .refused (.violation v (mark v s))

/-! ## A pass (41 R90) -/

/-- The tuple of the state that V7 records. -/
def stateTuple (s : State) : StateTuple :=
  { session := s.session, bitPhase := s.bitPhase, currentBit := s.currentBit, half := s.half,
    pulseTicks := s.pulseTicks, bitIndex := s.bitIndex, gapTicks := s.gapTicks, line := s.line }

/-- The state is in the table of 10_state.md R37, one row of it per alternative. -/
def legal (P : Params) (s : State) : Bool :=
  match s.session, s.bitPhase, s.half with
  | .idle, .idle, .high => decide (s.pulseTicks = 0) && decide (s.gapTicks = 0)
  | .sending, .idle, .high => decide (s.pulseTicks = 0) && decide (s.gapTicks = 0)
  | .sending, .startBit, .high => decide (s.pulseTicks = 0) && decide (s.gapTicks = 0)
  | .sending, .sending, h => decide (s.pulseTicks < threshold s.currentBit h) && decide (s.gapTicks = 0)
  | .sending, .nextBit, .high => decide (s.pulseTicks = 0) && decide (s.gapTicks = 0)
  | .resetGap, .idle, .high => decide (s.pulseTicks = 0) && decide (s.gapTicks < P.resetTicks)
  | _, _, _ => false

/-- The start of a pass: it has not touched the line yet (00_scope.md R10). Tick entry saves and switches
nothing (60 R116). -/
def beginPass (s : State) : State := { s with driven := none }

/-- `drive(L)`: the line takes the level, and the pass has touched it (R10). -/
def drive (l : Level) (s : State) : State := { s with line := l, driven := some l }

/-- One pass whose arm is `body`: V7 outside the table of R37 (R68, R111), and only where the state's
selector picks the arm (R65). -/
def runPass (P : Params) (selected : Prop) [Decidable selected] (s : State) (body : State → Out) : Out :=
  if legal P s = true then
    if selected then body (beginPass s) else .refused .armNotSelected
  else raise (.illegalState (stateTuple s)) s

/-- A fetch of frame bit `k` by a pass that began in `s`: V3 where it lies outside the buffer
(20_memory.md R45, 60 R111), else the pass goes on to `o`. -/
def fetching (P : Params) (k : Nat) (s : State) (o : Out) : Out :=
  if k < bufBits P then o else raise (.lenRange k) s

/-! ## Whose turn it is, and the word it brings (20_memory.md R48) -/

/-- The value of an idle host port, `h_op = 00` (R66). -/
def idlePort : HostWord := { hOp := 0b00#2, hAddr := 0, hData := 0#8, hLen := 0 }

/-- The word of the next operation. A tick's word is the selector of the state (R65); a used-up schedule is
a tick (70 R143). -/
def fetchWord (s : State) : PortWord :=
  match s.schedule with
  | [] => .tick (selector s.session s.bitPhase)
  | .tick :: _ => .tick (selector s.session s.bitPhase)
  | .foreground :: _ => .host (s.program.headD idlePort)
  | .reset :: _ => .reset 1#1
  | .symbol levels :: _ => .symbol levels

/-- The state once that word has been taken: the turn is spent, and a foreground turn spends its word. -/
def fetchRest (s : State) : State :=
  match s.schedule with
  | [] => s
  | .foreground :: ts => { s with schedule := ts, program := s.program.tail }
  | .tick :: ts => { s with schedule := ts }
  | .reset :: ts => { s with schedule := ts }
  | .symbol _ :: ts => { s with schedule := ts }

/-- Only `RESET` may run before `RESET` has been applied (70 R132). -/
def mayRun (i : Instr) (s : State) : Bool := s.booted || decide (i = .reset)

/-! ## Making an operation the next one -/

/-- `s` able to take a step: no mark, `RESET` applied. -/
def runnable (s : State) : State := { s with violation := none, booted := true }

/-- A tick is next, and the selector picks the arm of `(session, phase)`, with the counters and `half` of
the R37 row. -/
def placeTick (session : Session) (phase : BitPhase) (s : State) : State :=
  { runnable s with
    schedule := .tick :: s.schedule, session := session, bitPhase := phase, half := .high, pulseTicks := 0,
    gapTicks := 0 }

/-- The bit window of `bit` is next, and its first pass is due. -/
def placeSymbol (bit : FrameBit) (s : State) : State :=
  { placeTick .sending .sending s with schedule := .symbol (symbolLevels bit) :: s.schedule, currentBit := bit }

/-- The host-port word of an operation, the idle port's for one that has none. -/
def hostWordOf (i : Instr) : HostWord :=
  match encodeWord i with
  | some (.host w) => w
  | _ => idlePort

/-- The foreground context's next word is that of `i`, and it has the next turn. -/
def placeHost (i : Instr) (s : State) : State :=
  { runnable s with schedule := .foreground :: s.schedule, program := hostWordOf i :: s.program }

/-- `s` with all that the very next step needs to run `i` (log 20). The macro has no word; its expansion is
placed. -/
def place : Instr → State → State
  | .reset, s => { runnable s with booted := false, schedule := .reset :: s.schedule }
  | .poll, s => placeHost .poll s
  | .bufwr i v, s => placeHost (.bufwr i v) s
  | .setlen n, s => placeHost (.setlen n) s
  | .start, s => placeHost .start s
  | .arm n colors, s => (armExpansion n colors).foldr placeHost s
  | .tIdle, s => placeTick .idle .idle s
  | .tEntry, s => placeTick .sending .idle s
  | .tStartbit, s => placeTick .sending .startBit s
  | .tShape, s => placeTick .sending .sending s
  | .tNextbit, s => placeTick .sending .nextBit s
  | .tGap, s => placeTick .resetGap .idle s
  | .sym0, s => placeSymbol .zero s
  | .sym1, s => placeSymbol .one s

/-- `s` with an undecodable word next, so that the next step stops. -/
def placeNothing (s : State) : State := { s with schedule := .symbol 0#10 :: s.schedule }

/-- `s` with the operation of a table row's bits next. -/
def placeTableWord (s : State) (nbits w : Nat) : State :=
  match decodeTableWord nbits w with
  | some i => place i s
  | none => placeNothing s

end Sys2Proof.Machine
end

