-- ==== Sys2Proof/Machine/Flags.lean ====
section
/-!
DEFINITION. Sys2Proof/Machine/Flags.lean: the three flags of 10_state.md R33: `current_bit`, `half`, and the
busy predicate.
-/

namespace Sys2Proof.Machine

/-- Busy: `session != Idle` (R21, conflict C8). -/
abbrev busy (s : State) : Prop := s.session ≠ .idle

/-- `BufBit(k)`: frame bit `k` as it is in the buffer now (00_scope.md R10, 20_memory.md R41, R51). -/
def bufBit (P : Params) (s : State) (k : Nat) : FrameBit := bitOf (readByte P s (byteIndex k)) (bitOffset k)

/-- Bit 0 of the byte that holds frame bit `k`, which is what `T_STARTBIT` loads (41 R93, D21). -/
def bufBitZero (P : Params) (s : State) (k : Nat) : FrameBit := bitOf (readByte P s (byteIndex k)) 0

/-- The level a half is driven at (R94). -/
def halfLevel : Half → Level
  | .high => .high
  | .low => .low

/-- The state is at the first pass of the bit window of `bit` (41 R99). -/
abbrev atWindowStart (bit : FrameBit) (s : State) : Prop :=
  s.session = .sending ∧ s.bitPhase = .sending ∧ s.half = .high ∧ s.pulseTicks = 0 ∧ s.currentBit = bit

end Sys2Proof.Machine
end

