-- ==== Sys2Proof/Machine/HostPort.lean ====
section
/-!
DEFINITION. Sys2Proof/Machine/HostPort.lean: the host-port operations and the macro `ARM`
(40_frame_buffer_and_arming.md R80 to R84). Each meaning is a definition over the parameters, run by `exec`
at the machine's own parameters.
-/

namespace Sys2Proof.Machine

/-- `POLL` (R84): the result port takes the code of `session` (R73); nothing of the block changes. -/
def execPoll (s : State) : Out := .next { s with hRdata := s.session.code }

/-- `BUFWR i, v` (R80): V4 before V2 (R115). -/
def bufwr (P : Params) (i : Nat) (v : Byte) (s : State) : Out :=
  if P.bufCap ≤ i then raise (.addrRange i) s
  else if busy s then raise (.writeBusy .bufwr s.session) s
  else .next (writeByte P i v s)

/-- `BUFWR` at the machine's parameters. -/
def execBufwr (i : Nat) (v : Byte) (s : State) : Out := bufwr Config.params i v s

/-- `SETLEN n` (R81): V3 before V2 (R115). -/
def setlen (P : Params) (n : Nat) (s : State) : Out :=
  if bufBits P < n then raise (.lenRange n) s
  else if busy s then raise (.writeBusy .setlen s.session) s
  else .next { s with activeBitCount := n }

/-- `SETLEN` at the machine's parameters. -/
def execSetlen (n : Nat) (s : State) : Out := setlen Config.params n s

/-- `START` (R82). -/
def execStart (s : State) : Out :=
  if busy s then raise (.rearmBusy s.session) s else .next { s with session := .sending }

/-- `BUFWR i, b0 ; BUFWR i+1, b1 ; ...` in that order. -/
def bufwrAll (P : Params) (i : Nat) : List Byte → State → Out
  | [], s => .next s
  | b :: bs, s => andThen (bufwr P i b s) (bufwrAll P (i + 1) bs)

/-- `ARM(led_count, colors)` (R83): V5, then the primitives of R71 in order. -/
def arm (P : Params) (ledCount : Nat) (colors : List Byte) (s : State) : Out :=
  if P.maxLeds < ledCount ∨ colors.length ≠ armBytes ledCount then raise (.armArgs ledCount colors.length) s
  else andThen (andThen (bufwrAll P 0 colors s) (setlen P (armBits ledCount))) execStart

/-- `ARM` at the machine's parameters. The macro is not atomic in the machine: it has no word, and `step`
runs the words of its expansion one by one (log 14). -/
def execArm (ledCount : Nat) (colors : List Byte) (s : State) : Out := arm Config.params ledCount colors s

end Sys2Proof.Machine
end

