-- ==== Sys2Proof/Machine/Reset.lean ====
section
/-!
DEFINITION. Sys2Proof/Machine/Reset.lean: `RESET` (70_reset_and_hazards.md R130).
-/

namespace Sys2Proof.Machine

/-- The state `RESET` leaves: every item of R20 at its value of R35, the mark clear, the line LOW without a
drive. What the foreground context and the timer will do is theirs. -/
def resetState (s : State) : State := { State.reset with program := s.program, schedule := s.schedule }

/-- `RESET`: applied once, to the initial state (R130, N19, log 4). -/
def execReset (s : State) : Out :=
  if s.booted = true then .refused .secondReset else .next (resetState s)

end Sys2Proof.Machine
end

