-- ==== Sys2Proof/Machine/Tick.lean ====
section
/-!
DEFINITION. Sys2Proof/Machine/Tick.lean: the six arms of `TICK` (41_timing_engine.md R91 to R96).
-/

namespace Sys2Proof.Machine

/-- `T_IDLE` (R91): nothing, and the line is not touched. -/
def tIdle (P : Params) (s : State) : Out := runPass P (s.session = .idle) s fun b => .next b

/-- `T_IDLE` at the machine's parameters. -/
def execTIdle (s : State) : Out := tIdle Config.params s

/-- `T_ENTRY` (R92): the read of `buf[0]` is in bounds, since `BUF_CAP >= 3`. -/
def tEntry (P : Params) (s : State) : Out :=
  runPass P (s.session = .sending ∧ s.bitPhase = .idle) s fun b =>
    .next { b with bitIndex := 0, pulseTicks := 0, currentBit := bufBit P b 0, bitPhase := .startBit }

/-- `T_ENTRY` at the machine's parameters. -/
def execTEntry (s : State) : Out := tEntry Config.params s

/-- `T_STARTBIT` (R93): the empty frame goes to the completion test without a fetch (D10). -/
def tStartbit (P : Params) (s : State) : Out :=
  runPass P (s.session = .sending ∧ s.bitPhase = .startBit) s fun b =>
    if b.bitIndex = b.activeBitCount then .next { b with bitPhase := .nextBit }
    else fetching P b.bitIndex s
      (.next { b with currentBit := bufBitZero P b b.bitIndex, bitPhase := .sending })

/-- `T_STARTBIT` at the machine's parameters. -/
def execTStartbit (s : State) : Out := tStartbit Config.params s

/-- The window observation after a pass that drives `l`: a first pass starts it anew. -/
def extendWindow (s : State) (l : Level) : List Level :=
  (if s.half = .high ∧ s.pulseTicks = 0 then [] else s.window) ++ [l]

/-- `T_SHAPE` (R94): drive, increment, compare, in that order (D11). -/
def tShape (P : Params) (s : State) : Out :=
  runPass P (s.session = .sending ∧ s.bitPhase = .sending) s fun b =>
    let d := { drive (halfLevel b.half) b with window := extendWindow b (halfLevel b.half) }
    if b.pulseTicks + 1 = threshold b.currentBit b.half then
      match b.half with
      | .high => .next { d with pulseTicks := 0, half := .low }
      | .low => .next { d with pulseTicks := 0, half := .high, bitIndex := b.bitIndex + 1, bitPhase := .nextBit }
    else .next { d with pulseTicks := b.pulseTicks + 1 }

/-- `T_SHAPE` at the machine's parameters. -/
def execTShape (s : State) : Out := tShape Config.params s

/-- `T_NEXTBIT` (R95): the completion test is equality; a fetch out of the buffer is V3. -/
def tNextbit (P : Params) (s : State) : Out :=
  runPass P (s.session = .sending ∧ s.bitPhase = .nextBit) s fun b =>
    if b.bitIndex = b.activeBitCount then .next { b with bitPhase := .idle, session := .resetGap }
    else fetching P b.bitIndex s
      (.next { b with currentBit := bufBit P b b.bitIndex, bitPhase := .sending })

/-- `T_NEXTBIT` at the machine's parameters. -/
def execTNextbit (s : State) : Out := tNextbit Config.params s

/-- `T_GAP` (R96): LOW unconditionally; the pass that reaches `RESET_TICKS` ends the session (C9). -/
def tGap (P : Params) (s : State) : Out :=
  runPass P (s.session = .resetGap) s fun b =>
    if b.gapTicks + 1 = P.resetTicks then .next { drive .low b with gapTicks := 0, session := .idle }
    else .next { drive .low b with gapTicks := b.gapTicks + 1 }

/-- `T_GAP` at the machine's parameters. -/
def execTGap (s : State) : Out := tGap Config.params s

end Sys2Proof.Machine
end

