-- ==== Sys2Proof/Machine/Symbol.lean ====
section
/-!
DEFINITION. Sys2Proof/Machine/Symbol.lean: the line symbols `SYM0` and `SYM1` (30_encoding.md R62): the ten
`T_SHAPE` passes of one bit window (41_timing_engine.md R99), taken as one operation (log 15).
-/

namespace Sys2Proof.Machine

/-- `n` passes of `T_SHAPE` in a row. -/
def shapePasses (P : Params) : Nat → State → Out
  | 0, s => .next s
  | n + 1, s => andThen (tShape P s) (shapePasses P n)

/-- The bit window of `bit`, from its first pass. -/
def shapeWindow (P : Params) (bit : FrameBit) (s : State) : Out :=
  if atWindowStart bit s then shapePasses P Config.bitWindow s else .refused .symbolNotNext

/-- `SYM0` at the machine's parameters. -/
def execSym0 (s : State) : Out := shapeWindow Config.params .zero s

/-- `SYM1` at the machine's parameters. -/
def execSym1 (s : State) : Out := shapeWindow Config.params .one s

end Sys2Proof.Machine
end

