-- ==== Sys2Proof/Machine/Dispatch.lean ====
section
/-!
DEFINITION. Sys2Proof/Machine/Dispatch.lean: one arm per operation.
-/

namespace Sys2Proof.Machine

def exec (i : Instr) (s : State) : Host.Outcome State Fault Refusal :=
  match i with
  | .reset => Sys2Proof.Machine.execReset s
  | .poll => Sys2Proof.Machine.execPoll s
  | .bufwr a v => Sys2Proof.Machine.execBufwr a v s
  | .setlen n => Sys2Proof.Machine.execSetlen n s
  | .start => Sys2Proof.Machine.execStart s
  | .arm ledCount colors => Sys2Proof.Machine.execArm ledCount colors s
  | .tIdle => Sys2Proof.Machine.execTIdle s
  | .tEntry => Sys2Proof.Machine.execTEntry s
  | .tStartbit => Sys2Proof.Machine.execTStartbit s
  | .tShape => Sys2Proof.Machine.execTShape s
  | .tNextbit => Sys2Proof.Machine.execTNextbit s
  | .tGap => Sys2Proof.Machine.execTGap s
  | .sym0 => Sys2Proof.Machine.execSym0 s
  | .sym1 => Sys2Proof.Machine.execSym1 s

end Sys2Proof.Machine
end

