-- ==== Sys2Proof/Machine/Step.lean ====
section
/-!
DEFINITION. Sys2Proof/Machine/Step.lean: one atomic operation of the block (20_memory.md R47, R48).
-/

namespace Sys2Proof.Machine

/-- One step: a marked state takes none (60 R112, D13); otherwise the word of whoever has the turn is
decoded and run. -/
def step (s : State) : Host.Outcome State Fault Refusal :=
  match s.violation with
  | some v => .refused (.violation v s)
  | none =>
    match decode (fetchWord s) with
    | .error e => .refused (.undecodable e)
    | .ok i => if mayRun i s = true then exec i (fetchRest s) else .refused .beforeReset

/-- `s` with the operation of a table row's bits as the very next one: a host word is placed at the port and
given the turn, a tick arm is selected by setting the selector it decodes from (log 1, log 20). -/
def State.withFetchWord (s : State) (nbits w : Nat) : State := placeTableWord s nbits w

end Sys2Proof.Machine
end

