-- ==== Sys2Proof/Safety.lean ====
section
/-!
DEFINITION. Sys2Proof/Safety.lean: the terms that claims about the block use: the premises of
70_reset_and_hazards.md R148 that the model can express, the invariant of every reachable state, and runs.
-/

namespace Sys2Proof.Safety

open Sys2Proof.Machine

/-! ## Premises (R148). `ParamsOk` holds of every value of `Params` by construction -/

/-- `NoViolation`: no violation mark is set. -/
abbrev NoViolation (s : State) : Prop := s.violation = none

/-- The state can take a step: no mark, and `RESET` has been applied (R132). -/
abbrev Running (s : State) : Prop := NoViolation s ∧ s.booted = true

/-- `Quiescent`: the invariant of 10_state.md R36. -/
abbrev Quiescent (s : State) : Prop :=
  s.session = .idle ∧ s.bitPhase = .idle ∧ s.half = .high ∧ s.pulseTicks = 0 ∧ s.gapTicks = 0 ∧ s.line = .low

/-- `LenOk`: the length is within the buffer. -/
abbrev LenOk (s : State) : Prop := s.activeBitCount ≤ bufBits Config.params

/-- The state is in the table of R37 for the machine's parameters. -/
abbrev Legal (s : State) : Prop := legal Config.params s = true

/-- The next turn is a tick's. -/
abbrev TickTurn (s : State) : Prop := s.schedule.head?.getD .tick = .tick

/-- The next turn is the foreground context's. -/
abbrev ForegroundTurn (s : State) : Prop := s.schedule.head? = some .foreground

/-- The ten items of R20 agree. -/
structure SameBlock (s t : State) : Prop where
  session : t.session = s.session
  bitPhase : t.bitPhase = s.bitPhase
  currentBit : t.currentBit = s.currentBit
  half : t.half = s.half
  pulseTicks : t.pulseTicks = s.pulseTicks
  bitIndex : t.bitIndex = s.bitIndex
  gapTicks : t.gapTicks = s.gapTicks
  line : t.line = s.line
  activeBitCount : t.activeBitCount = s.activeBitCount
  buf : t.buf = s.buf

/-! ## The invariant -/

/-- The memory is in its canonical form and holds no index beyond the buffer (20_memory.md R45). -/
abbrev MemoryOk (s : State) : Prop :=
  Memory.wf Config.params.bufInit s.buf ∧ ∀ c ∈ s.buf, c.1 < Config.params.bufCap

/-- How `bit_index` stands to `active_bit_count` (R26). -/
def ProgressOk (s : State) : Prop :=
  match s.session, s.bitPhase with
  | .sending, .startBit => s.bitIndex = 0
  | .sending, .sending => s.bitIndex < s.activeBitCount
  | .sending, .nextBit => s.bitIndex ≤ s.activeBitCount
  | .resetGap, _ => s.bitIndex = s.activeBitCount
  | _, _ => True

/-- `current_bit` is the frame bit the engine is at (R41, R53). -/
def FetchOk (s : State) : Prop :=
  match s.session, s.bitPhase with
  | .sending, .startBit => s.currentBit = bufBit Config.params s 0
  | .sending, .sending => s.currentBit = bufBit Config.params s s.bitIndex
  | .sending, .nextBit => 0 < s.bitIndex → s.currentBit = bufBit Config.params s (s.bitIndex - 1)
  | _, _ => True

/-- The level the line holds in each row of R37 (R29, R36, R101). -/
def expectedLine (s : State) : Level :=
  match s.session, s.bitPhase, s.half with
  | .sending, .sending, .high => if s.pulseTicks = 0 then .low else .high
  | .sending, .sending, .low => if s.pulseTicks = 0 then .high else .low
  | _, _, _ => .low

/-- The ten levels of the bit window of a frame bit, first pass first (30_encoding.md R62). -/
def windowLevels : FrameBit → List Level
  | .zero => [.high, .high, .high, .low, .low, .low, .low, .low, .low, .low]
  | .one => [.high, .high, .high, .high, .high, .high, .high, .low, .low, .low]

/-- How many passes of the bit window in progress have run. -/
def passesDone (s : State) : Nat :=
  match s.half with
  | .high => s.pulseTicks
  | .low => threshold s.currentBit .high + s.pulseTicks

/-- The levels driven so far in a window are the first of its symbol; at its end, the whole symbol (R99). -/
def WindowOk (s : State) : Prop :=
  match s.session, s.bitPhase with
  | .sending, .sending => 0 < passesDone s → s.window = (windowLevels s.currentBit).take (passesDone s)
  | .sending, .nextBit => 0 < s.bitIndex → s.window = windowLevels s.currentBit
  | _, _ => True

/-- What holds in every reachable state. -/
structure EngineInv (s : State) : Prop where
  legal : Legal s
  memory : MemoryOk s
  len : LenOk s
  progress : ProgressOk s
  fetch : FetchOk s
  line : s.line = expectedLine s
  window : WindowOk s

/-! ## Runs -/

/-- `k` steps, stopping at the first stop. -/
abbrev run (k : Nat) (s : State) : Out := Host.Core.run core k s

/-- The states that some execution from reset leads to: whatever the foreground context's program and
whatever the interleaving (20_memory.md R48). -/
inductive Reachable : State → Prop where
  | start (program : List HostWord) (schedule : List Turn) :
      Reachable { State.reset with program := program, schedule := schedule }
  | step {s t : State} : Reachable s → step s = .next t → Reachable t

/-! ## Sessions -/

/-- Ticks of a session of `n` bits, from the first tick after `START` (41 R100). -/
def sessionTicks (n : Nat) : Nat :=
  if n = 0 then 3 + Config.params.resetTicks else 2 + 11 * n + Config.params.resetTicks

/-- How many turns there are up to and with the `n`-th tick to come; ticks follow where the turns are used up
(log 2). -/
def stepsToTick : Nat → List Turn → Nat
  | 0, _ => 0
  | n + 1, [] => n + 1
  | n + 1, .tick :: ts => stepsToTick n ts + 1
  | n + 1, .foreground :: ts => stepsToTick (n + 1) ts + 1
  | n + 1, .reset :: ts => stepsToTick (n + 1) ts + 1
  | n + 1, .symbol _ :: ts => stepsToTick (n + 1) ts + 1

/-- How many of the first `j` turns to come are ticks. -/
def ticksBy : Nat → List Turn → Nat
  | 0, _ => 0
  | j + 1, [] => j + 1
  | j + 1, .tick :: ts => ticksBy j ts + 1
  | j + 1, .foreground :: ts => ticksBy j ts
  | j + 1, .reset :: ts => ticksBy j ts
  | j + 1, .symbol _ :: ts => ticksBy j ts

/-- The state at tick `k` (00_scope.md R11): after the pass of the `k`-th tick from `s`, wherever the turns of
the foreground context fall. -/
abbrev atTick (k : Nat) (s : State) : Out := run (stepsToTick k s.schedule) s

/-- Up to the `n`-th tick to come the foreground context presents nothing but `POLL`; what it presents after
that tick is free. A `symbol` turn is written out as its ten ticks here (log 15). -/
def pollsOnly : Nat → List HostWord → List Turn → Bool
  | 0, _, _ => true
  | _ + 1, _, [] => true
  | n + 1, ws, .tick :: ts => pollsOnly n ws ts
  | n + 1, ws, .foreground :: ts => decide ((ws.headD idlePort).hOp = 0b00#2) && pollsOnly (n + 1) ws.tail ts
  | _ + 1, _, .reset :: _ => false
  | _ + 1, _, .symbol _ :: _ => false

/-- `pollsOnly` of what a state has to come. -/
abbrev QuietFor (n : Nat) (s : State) : Prop := pollsOnly n s.program s.schedule = true

/-- `HostQuiet`: from the `START` that led to `s` to the end of its session, and no further, the host issues
nothing but `POLL`. -/
abbrev HostQuiet (s : State) : Prop := QuietFor (sessionTicks s.activeBitCount) s

/-- A `START` in `q` that leads to `s`, under the premises of R148 and no others: `NoViolation` (with `RESET`
applied), `Quiescent`, `LenOk`, and `HostQuiet` up to the end of the session. `ParamsOk` holds by construction
(log 6), `TickFair` by the ticks that follow a used-up schedule (log 2, log 23, log 29). -/
structure SessionStart (q s : State) : Prop where
  running : Running q
  quiescent : Quiescent q
  len : LenOk q
  start : exec .start q = .next s
  quiet : HostQuiet s

end Sys2Proof.Safety
end

