-- ==== Sys2Proof/WellFormed.lean ====
section
/-!
DEFINITION. Sys2Proof/WellFormed.lean: the operand ranges the spec lists for each operation. A range broken
at run time is a violation that the meanings raise (60_exceptions.md R111); nothing here is read by `exec`.
-/

namespace Sys2Proof

/-- The operands lie in the ranges of 30_encoding.md R66 (`h_addr`, `h_len`) and 40 R83 (`ARM`), for the
parameters `P`. -/
def wellFormed (P : Params) : Instr → Bool
  | .reset => true
  | .poll => true
  | .bufwr i _ => decide (i < P.bufCap)
  | .setlen n => decide (n < 2 ^ P.wIdx)
  | .start => true
  | .arm n colors => decide (n ≤ P.maxLeds) && decide (colors.length = Config.bytesPerLed * n)
  | .tIdle => true
  | .tEntry => true
  | .tStartbit => true
  | .tShape => true
  | .tNextbit => true
  | .tGap => true
  | .sym0 => true
  | .sym1 => true

/-- Well-formed for the machine's own parameters. -/
abbrev WellFormed (i : Instr) : Prop := wellFormed Config.params i = true

end Sys2Proof
end

