-- ==== Sys2Proof/Certificates/Slice0/Obligations.lean ====
section
/-!
DEFINITION. Sys2Proof/Certificates/Slice0/Obligations.lean: the statements about the block. OBLIGATIONS.json
lists them with the rules they rest on. All are about the machine's own parameters (`Config.params`), of
which nothing but the bounds of R8 is known, so each holds for every choice of them.

A statement that gives a whole next state says of the model's own fields what the model chose: the result port
keeps the last `POLL`'s answer (log 18), the drive record is that of the last pass (log 17), the window
observation is T_SHAPE's (log 16), `booted`, `program` and `schedule` are inputs (log 4, log 1). Those clauses
are the model's and no rule's.
-/

open Sys2Proof Sys2Proof.Machine Sys2Proof.Safety

/-! ## Encoding -/

/-- Words written out from R60, R62, R65 and R66 decode to the operations they stand for. -/
def Obligations.SpecWordsDecode : Prop :=
  decode (.reset 0b1#1) = .ok .reset ∧
  decode (.host { hOp := 0b00#2, hAddr := 0, hData := 0x00#8, hLen := 0 }) = .ok .poll ∧
  decode (.host { hOp := 0b01#2, hAddr := 5, hData := 0xFF#8, hLen := 0 }) = .ok (.bufwr 5 0xFF#8) ∧
  decode (.host { hOp := 0b10#2, hAddr := 0, hData := 0x00#8, hLen := 48 }) = .ok (.setlen 48) ∧
  decode (.host { hOp := 0b11#2, hAddr := 0, hData := 0x00#8, hLen := 0 }) = .ok .start ∧
  decode (.tick 0b0011#4) = .ok .tIdle ∧
  decode (.tick 0b0101#4) = .ok .tStartbit ∧
  decode (.tick 0b0110#4) = .ok .tShape ∧
  decode (.tick 0b1001#4) = .ok .tGap ∧
  decode (.tick 0b1110#4) = .error (.reservedSelector 0b1110#4) ∧
  decode (.symbol 0b1110000000#10) = .ok .sym0 ∧
  decode (.symbol 0b1111111000#10) = .ok .sym1

/-- Decode and encode agree on every operation: the one word of each operation that has one decodes to it
with all its operands, and the macro, the only operation without a word (R72), encodes to words that decode
to the expansion of R71, in its order. -/
def Obligations.DecodeOfEncodeIsTheInstruction : Prop :=
  (∀ i w, encodeWord i = some w → encode i = [w] ∧ decode w = .ok i) ∧
  (∀ i, encodeWord i = none ↔ ∃ n colors, i = .arm n colors) ∧
  (∀ n colors, ∃ is, decodeAll (encode (.arm n colors)) = .ok is ∧
    is.length = colors.length + 2 ∧
    (∀ k (h : k < colors.length), is[k]? = some (.bufwr k colors[k])) ∧
    is[colors.length]? = some (.setlen (24 * n)) ∧ is[colors.length + 1]? = some .start)

/-- Every word of a well-formed operation, the words of the macro's expansion among them, fits the host port:
a byte index of the buffer and a length of `W_IDX` bits, and no derived operand overflows (R66, R67). -/
def Obligations.WellFormedWordsFitTheHostPort : Prop :=
  ∀ i w, WellFormed i → .host w ∈ encode i →
    w.hAddr < Config.params.bufCap ∧ w.hLen < 2 ^ Config.params.wIdx

/-- Operand signals that a row of the host format does not list are ignored (R66). -/
def Obligations.UnlistedHostOperandsAreIgnored : Prop :=
  ∀ a d n a' d' n',
    decodeHost { hOp := 0b00#2, hAddr := a, hData := d, hLen := n } =
      decodeHost { hOp := 0b00#2, hAddr := a', hData := d', hLen := n' } ∧
    decodeHost { hOp := 0b01#2, hAddr := a, hData := d, hLen := n } =
      decodeHost { hOp := 0b01#2, hAddr := a, hData := d, hLen := n' } ∧
    decodeHost { hOp := 0b10#2, hAddr := a, hData := d, hLen := n } =
      decodeHost { hOp := 0b10#2, hAddr := a', hData := d', hLen := n } ∧
    decodeHost { hOp := 0b11#2, hAddr := a, hData := d, hLen := n } =
      decodeHost { hOp := 0b11#2, hAddr := a', hData := d', hLen := n' }

/-! ## The step -/

/-- A step in an unmarked state is `exec` of the decoded operation on the state whose turn, and for a
foreground turn whose word, is spent. Before `RESET` only `RESET` runs (the model's choice, log 5). -/
def Obligations.StepRunsTheDecodedInstruction : Prop :=
  ∀ s i, NoViolation s → decode (fetchWord s) = .ok i → (s.booted = true ∨ i = .reset) →
    step s = exec i (fetchRest s) ∧
    fetchRest s =
      { s with
        schedule := s.schedule.tail
        program := if ForegroundTurn s then s.program.tail else s.program }

/-- A tick executes the one arm that `session`, and under Sending `bit_phase`, pick (R65, R90). -/
def Obligations.TickRunsTheArmTheStateSelects : Prop :=
  ∀ s, Running s → TickTurn s →
    step s =
      match s.session, s.bitPhase with
      | .idle, _ => exec .tIdle (fetchRest s)
      | .sending, .idle => exec .tEntry (fetchRest s)
      | .sending, .startBit => exec .tStartbit (fetchRest s)
      | .sending, .sending => exec .tShape (fetchRest s)
      | .sending, .nextBit => exec .tNextbit (fetchRest s)
      | .resetGap, _ => exec .tGap (fetchRest s)

/-- The operation that a table row's bits decode to is the very next one that runs from the state they are
placed in, and running it uses up exactly what was placed (the model's own placing, log 20). -/
def Obligations.PlacedTableWordRunsNext : Prop :=
  ∀ (s : State) nbits w i, decodeTableWord nbits w = some i →
    step (s.withFetchWord nbits w) = exec i (fetchRest (s.withFetchWord nbits w)) ∧
    (fetchRest (s.withFetchWord nbits w)).schedule = s.schedule ∧
    (fetchRest (s.withFetchWord nbits w)).program = s.program

/-- An idle host port presents `POLL` (R66: "so `00` is also the port's idle value"). -/
def Obligations.IdleHostPortPolls : Prop :=
  ∀ s, Running s → ForegroundTurn s → s.program = [] → step s = exec .poll (fetchRest s)

/-- A word that decodes to no operation stops the machine by name, and so does any operation before `RESET`
(the model's choices, log 5 and log 28). -/
def Obligations.UndecodableOrEarlyWordsStop : Prop :=
  (∀ s e, NoViolation s → decode (fetchWord s) = .error e → step s = .refused (.undecodable e)) ∧
  (∀ s i, NoViolation s → s.booted = false → decode (fetchWord s) = .ok i → i ≠ .reset →
    step s = .refused .beforeReset)

/-! ## Reset -/

/-- The state after reset has the values of the table of reset values in 10_state.md section 5. "Only the first
two rows are stated by the source [...]; every other row is this spec's choice" (D6, D17; log 24), and the
buffer's content is a free value (log 7). -/
def Obligations.StateAfterResetHasTheSpecValues : Prop :=
  State.reset.session = .idle ∧ State.reset.bitPhase = .idle ∧ State.reset.currentBit = .zero ∧
  State.reset.half = .high ∧ State.reset.pulseTicks = 0 ∧ State.reset.bitIndex = 0 ∧
  State.reset.gapTicks = 0 ∧ State.reset.line = .low ∧ State.reset.activeBitCount = 0 ∧
  ∀ i, readByte Config.params State.reset i = Config.bufInit i

/-- `RESET`, applied to an initial state whatever its items hold, leaves every item at its R35 value and the
mark clear, sets the line without a drive, and leaves what the foreground context and the timer will do. The
model's choices in it: that it is applied once (`booted`, log 4); that the result port is 00 after it (log 18,
unsafe), the window observation empty (log 16) and the drive record none (log 17). -/
def Obligations.ResetWritesEveryItem : Prop :=
  ∀ s, s.booted = false →
    exec .reset s = .next { State.reset with program := s.program, schedule := s.schedule } ∧
    State.reset.violation = none ∧ State.reset.driven = none ∧ State.reset.booted = true

/-- A second `RESET` is refused by name, in every state (the model's reading of "once", log 4). -/
def Obligations.SecondResetIsRefused : Prop :=
  ∀ s, s.booted = true → exec .reset s = .refused .secondReset

/-! ## The host port -/

/-- `POLL` answers the code of `session`, never 11, and changes nothing else; completion is `h_rdata = 00`
(R73). -/
def Obligations.PollReturnsTheSessionCode : Prop :=
  ∀ s, ∃ t, exec .poll s = .next t ∧ t = { s with hRdata := t.hRdata } ∧
    (t.hRdata = 0b00#2 ↔ s.session = .idle) ∧ (t.hRdata = 0b01#2 ↔ s.session = .sending) ∧
    (t.hRdata = 0b10#2 ↔ s.session = .resetGap) ∧ t.hRdata ≠ 0b11#2

/-- `BUFWR i, v` (`h_op` 01) stores one byte and nothing else; V4 is tested before V2 (R80). -/
def Obligations.BufwrStoresExactlyOneByte : Prop :=
  ∀ i v s,
    (∀ n, decode (.host { hOp := 0b01#2, hAddr := i, hData := v, hLen := n }) = .ok (.bufwr i v)) ∧
    (i < Config.params.bufCap → s.session = .idle →
      ∃ t, exec (.bufwr i v) s = .next t ∧ t = { s with buf := t.buf } ∧
        ∀ a, readByte Config.params t a = if a = i then v else readByte Config.params s a) ∧
    (Config.params.bufCap ≤ i →
      exec (.bufwr i v) s = .refused (.violation (.addrRange i) { s with violation := some (.addrRange i) })) ∧
    (i < Config.params.bufCap → s.session ≠ .idle →
      exec (.bufwr i v) s =
        .refused (.violation (.writeBusy .bufwr s.session)
          { s with violation := some (.writeBusy .bufwr s.session) }))

/-- `SETLEN n` (`h_op` 10) writes the length and nothing else; V3 is tested before V2 (R81). -/
def Obligations.SetlenWritesTheLength : Prop :=
  ∀ n s,
    (∀ a d, decode (.host { hOp := 0b10#2, hAddr := a, hData := d, hLen := n }) = .ok (.setlen n)) ∧
    (n ≤ 8 * Config.params.bufCap → s.session = .idle →
      exec (.setlen n) s = .next { s with activeBitCount := n }) ∧
    (8 * Config.params.bufCap < n →
      exec (.setlen n) s = .refused (.violation (.lenRange n) { s with violation := some (.lenRange n) })) ∧
    (n ≤ 8 * Config.params.bufCap → s.session ≠ .idle →
      exec (.setlen n) s =
        .refused (.violation (.writeBusy .setlen s.session)
          { s with violation := some (.writeBusy .setlen s.session) }))

/-- `START` (`h_op` 11) moves `session` from Idle to Sending and writes nothing else; while busy it is V1
(R82). -/
def Obligations.StartArmsTheEngine : Prop :=
  ∀ s,
    (∀ a d n, decode (.host { hOp := 0b11#2, hAddr := a, hData := d, hLen := n }) = .ok .start) ∧
    (s.session = .idle → exec .start s = .next { s with session := .sending }) ∧
    (s.session ≠ .idle →
      exec .start s =
        .refused (.violation (.rearmBusy s.session) { s with violation := some (.rearmBusy s.session) }))

/-- `ARM(n, colors)` from Idle with fitting arguments: the `3*n` bytes are the colours in order, every other
byte, and every other item but `active_bit_count = 24*n` and `session = Sending`, is as before (R42, R83). -/
def Obligations.ArmCopiesSetsAndStarts : Prop :=
  ∀ n colors s, n ≤ Config.params.maxLeds → colors.length = 3 * n → s.session = .idle →
    ∃ t, exec (.arm n colors) s = .next t ∧
      t = { s with buf := t.buf, activeBitCount := 24 * n, session := .sending } ∧
      ∀ a, readByte Config.params t a =
        if h : a < colors.length then colors[a] else readByte Config.params s a

/-- `ARM` with arguments that do not fit is V5 in every state; with fitting ones while busy it is the V2 of
its first primitive (R71, R83, R111). -/
def Obligations.ArmBrokenPreconditionsAreRefused : Prop :=
  ∀ n colors s,
    ((Config.params.maxLeds < n ∨ colors.length ≠ 3 * n) →
      exec (.arm n colors) s =
        .refused (.violation (.armArgs n colors.length)
          { s with violation := some (.armArgs n colors.length) })) ∧
    (n ≤ Config.params.maxLeds → colors.length = 3 * n → s.session ≠ .idle →
      exec (.arm n colors) s =
        .refused (.violation (.writeBusy (if n = 0 then .setlen else .bufwr) s.session)
          { s with violation := some (.writeBusy (if n = 0 then .setlen else .bufwr) s.session) }))

/-- The macro and its words agree under every interleaving: the foreground context presents the words of
`ARM(n, colors)` one by one, any number of ticks falls before each, and the run ends in the state `exec`
gives the macro, with the words and turns spent; only the record of the last pass's drive may differ (R47,
R71, R83). -/
def Obligations.ArmIsItsWordsUnderAnyTicks : Prop :=
  ∀ n colors words rest (gaps : List Nat) later s,
    WellFormed (.arm n colors) → Running s → Legal s → s.session = .idle →
    encode (.arm n colors) = words.map .host → s.program = words ++ rest →
    gaps.length = words.length →
    s.schedule = gaps.flatMap (fun g => List.replicate g Turn.tick ++ [Turn.foreground]) ++ later →
    ∃ t u, exec (.arm n colors) s = .next u ∧ run (gaps.sum + gaps.length) s = .next t ∧
      t = { u with program := rest, schedule := later, driven := t.driven }

/-- After `ARM`, frame bit `k` is bit `k % 8` of colour byte `k / 8`, bit 0 the least significant (R41, R61). -/
def Obligations.ArmedFrameIsTheBytesLowBitFirst : Prop :=
  ∀ n colors s t k, exec (.arm n colors) s = .next t → k < 24 * n →
    k < t.activeBitCount ∧
    bufBit Config.params t k = if (colors.getD (k / 8) 0#8).getLsbD (k % 8) then .one else .zero

/-- No host-port operation writes an engine variable, the line, the model's record of the last pass, or what
is still to come (R40, R86). -/
def Obligations.HostOperationsLeaveTheEngineAlone : Prop :=
  ∀ i s t, (i = .poll ∨ (∃ a v, i = .bufwr a v) ∨ (∃ n, i = .setlen n) ∨ i = .start ∨
      ∃ n colors, i = .arm n colors) → exec i s = .next t →
    t.bitPhase = s.bitPhase ∧ t.currentBit = s.currentBit ∧ t.half = s.half ∧
    t.pulseTicks = s.pulseTicks ∧ t.bitIndex = s.bitIndex ∧ t.gapTicks = s.gapTicks ∧ t.line = s.line ∧
    t.driven = s.driven ∧ t.window = s.window ∧ t.booted = s.booted ∧ t.violation = s.violation ∧
    t.program = s.program ∧ t.schedule = s.schedule

/-! ## The tick arms -/

/-- `T_IDLE` (selector 00xx) changes no item and does not touch the line, once or in any number of ticks (R91). -/
def Obligations.IdleTicksAreInert : Prop :=
  (∀ p : BitVec 2, decode (.tick (0b00#2 ++ p)) = .ok .tIdle) ∧
  ∀ s, Legal s → s.session = .idle →
    exec .tIdle s = .next { s with driven := none } ∧
    ∀ k, Running s → s.schedule = [] → 0 < k → run k s = .next { s with driven := none }

/-- `T_ENTRY` (selector 0100; R92): its read of `buf[0]` is in bounds, and no premise is put on
`active_bit_count`. -/
def Obligations.EntryTickInitialises : Prop :=
  decode (.tick 0b0100#4) = .ok .tEntry ∧ 0 < Config.params.bufCap ∧
  ∀ s, Legal s → s.session = .sending → s.bitPhase = .idle →
    exec .tEntry s = .next
      { s with
        bitIndex := 0
        pulseTicks := 0
        currentBit := if (readByte Config.params s 0).getLsbD 0 then .one else .zero
        bitPhase := .startBit
        driven := none }

/-- `T_STARTBIT` (R93), with the empty frame's branch and the V3 of a fetch out of the buffer. -/
def Obligations.StartbitTickLoadsOrDiverts : Prop :=
  ∀ s, Legal s → s.session = .sending → s.bitPhase = .startBit →
    (s.bitIndex = s.activeBitCount → exec .tStartbit s = .next { s with bitPhase := .nextBit, driven := none }) ∧
    (s.bitIndex ≠ s.activeBitCount → s.bitIndex < 8 * Config.params.bufCap →
      exec .tStartbit s = .next
        { s with
          currentBit := if (readByte Config.params s (s.bitIndex / 8)).getLsbD 0 then .one else .zero
          bitPhase := .sending
          driven := none }) ∧
    (s.bitIndex ≠ s.activeBitCount → 8 * Config.params.bufCap ≤ s.bitIndex →
      exec .tStartbit s = .refused (.violation (.lenRange s.bitIndex)
        { s with violation := some (.lenRange s.bitIndex) }))

/-- `T_SHAPE` (R94): the level of the half at the start of the pass is driven; short of the threshold only
`pulse_ticks` moves on; at it `pulse_ticks` is 0 and `half` flips, and at the end of the LOW half the window
is over. The model's window observation is left open here. -/
def Obligations.ShapeTickDrivesAndCounts : Prop :=
  ∀ s, Legal s → s.session = .sending → s.bitPhase = .sending →
    ∃ t, exec .tShape s = .next t ∧
      ((s.pulseTicks + 1 ≠ threshold s.currentBit s.half →
        t = { s with
          line := if s.half = .high then .high else .low
          driven := some (if s.half = .high then .high else .low)
          pulseTicks := s.pulseTicks + 1
          window := t.window }) ∧
      (s.pulseTicks + 1 = threshold s.currentBit s.half → s.half = .high →
        t = { s with
          line := .high, driven := some .high, pulseTicks := 0, half := .low, window := t.window }) ∧
      (s.pulseTicks + 1 = threshold s.currentBit s.half → s.half = .low →
        t = { s with
          line := .low, driven := some .low, pulseTicks := 0, half := .high, bitIndex := s.bitIndex + 1,
          bitPhase := .nextBit, window := t.window }))

/-- `T_NEXTBIT` (R95), with the V3 of a fetch out of the buffer. -/
def Obligations.NextbitTickTestsThenFetches : Prop :=
  ∀ s, Legal s → s.session = .sending → s.bitPhase = .nextBit →
    (s.bitIndex = s.activeBitCount →
      exec .tNextbit s = .next { s with bitPhase := .idle, session := .resetGap, driven := none }) ∧
    (s.bitIndex ≠ s.activeBitCount → s.bitIndex < 8 * Config.params.bufCap →
      exec .tNextbit s = .next
        { s with
          currentBit :=
            if (readByte Config.params s (s.bitIndex / 8)).getLsbD (s.bitIndex % 8) then .one else .zero
          bitPhase := .sending
          driven := none }) ∧
    (s.bitIndex ≠ s.activeBitCount → 8 * Config.params.bufCap ≤ s.bitIndex →
      exec .tNextbit s = .refused (.violation (.lenRange s.bitIndex)
        { s with violation := some (.lenRange s.bitIndex) }))

/-- `T_GAP` (R96): LOW is driven; the pass that reaches `RESET_TICKS` clears the counter and ends the
session. -/
def Obligations.GapTickDrivesLowAndCounts : Prop :=
  ∀ s, Legal s → s.session = .resetGap →
    (s.gapTicks + 1 ≠ Config.params.resetTicks →
      exec .tGap s = .next { s with line := .low, driven := some .low, gapTicks := s.gapTicks + 1 }) ∧
    (s.gapTicks + 1 = Config.params.resetTicks →
      exec .tGap s = .next { s with line := .low, driven := some .low, gapTicks := 0, session := .idle })

/-- The engine's operations, the line symbols among them, write no byte of the buffer and not the length
(R44, R51), nor the mark. That they keep the host port's result is the model's choice (log 18, unsafe: the
spec gives `h_rdata` a value only as the answer to a `POLL`), and so is what they keep of the model's own
fields (log 1, log 4). -/
def Obligations.EngineOperationsLeaveTheFrameAlone : Prop :=
  ∀ i s t, i ∈ [Instr.tIdle, .tEntry, .tStartbit, .tShape, .tNextbit, .tGap, .sym0, .sym1] →
    exec i s = .next t →
    (∀ a, readByte Config.params t a = readByte Config.params s a) ∧
    t.activeBitCount = s.activeBitCount ∧ t.hRdata = s.hRdata ∧ t.violation = s.violation ∧
    t.booted = s.booted ∧ t.program = s.program ∧ t.schedule = s.schedule

/-- Only `T_SHAPE` and `T_GAP`, and the symbols made of `T_SHAPE` passes, drive the line; a pass that does not
drive leaves the level and says so, and one that drives leaves the line at the level it drove (R10, R29). -/
def Obligations.OnlyShapeAndGapDriveTheLine : Prop :=
  ∀ i s t, exec i s = .next t → i ≠ .reset →
    (i ∉ [Instr.tShape, .tGap, .sym0, .sym1] → t.line = s.line) ∧
    (i ∈ [Instr.tIdle, .tEntry, .tStartbit, .tNextbit] → t.driven = none) ∧
    (i ∈ [Instr.tShape, .tGap, .sym0, .sym1] → t.driven = some t.line)

/-- A tick arm in a state outside the table of R37 is V7 (R68, R111). That each of the six arms raises it,
`T_IDLE`, `T_GAP` and arms that the selector does not pick among them, and before the selector is looked at,
is the model's reading of "`TICK`" in R111 (log 12, DEDUCED). -/
def Obligations.TickOutsideTheTableIsRefused : Prop :=
  ∀ i s, i ∈ [Instr.tIdle, .tEntry, .tStartbit, .tShape, .tNextbit, .tGap] → ¬ Legal s →
    exec i s = .refused (.violation (.illegalState (stateTuple s))
      { s with violation := some (.illegalState (stateTuple s)) })

/-- A tick arm that the selector of the state does not pick is refused by name: no tick executes it (the
model's choice, log 13). -/
def Obligations.UnselectedArmIsRefused : Prop :=
  ∀ i s, i ∈ [Instr.tIdle, .tEntry, .tStartbit, .tShape, .tNextbit, .tGap] → Legal s →
    decode (.tick (selector s.session s.bitPhase)) ≠ .ok i → exec i s = .refused .armNotSelected

/-! ## The line symbols -/

/-- From the first pass of the window of a bit, `SYM0` or `SYM1` drives the ten levels of R62 and leaves the
window closed: `bit_index` one more, `bit_phase` NextBit, `half` High, the line LOW. That the ten passes are
one operation, and the window observation, are the model's (log 15, log 16). -/
def Obligations.SymbolDrivesItsTenLevels : Prop :=
  ∀ s, Legal s → s.session = .sending → s.bitPhase = .sending → s.half = .high → s.pulseTicks = 0 →
    (s.currentBit = .zero →
      exec .sym0 s = .next
        { s with
          line := .low, driven := some .low, bitIndex := s.bitIndex + 1, bitPhase := .nextBit,
          window := [.high, .high, .high, .low, .low, .low, .low, .low, .low, .low] }) ∧
    (s.currentBit = .one →
      exec .sym1 s = .next
        { s with
          line := .low, driven := some .low, bitIndex := s.bitIndex + 1, bitPhase := .nextBit,
          window := [.high, .high, .high, .high, .high, .high, .high, .low, .low, .low] })

/-- A symbol is ten ticks: from the first pass of a window, ten steps of the machine with only ticks to come
lead to the state the symbol leads to, and pass `k` drives bit `9 - k` of the symbol's word (R62, R99). -/
def Obligations.SymbolIsTenTicks : Prop :=
  ∀ s bit, Running s → Legal s → s.schedule = [] → atWindowStart bit s →
    run 10 s = exec (match bit with | .zero => .sym0 | .one => .sym1) s ∧
    ∀ k, k < 10 → ∃ t, run (k + 1) s = .next t ∧
      t.driven = some (if (symbolLevels bit).getLsbD (9 - k) then .high else .low)

/-- A symbol that the next ten passes do not shape is refused by name (the model's choice, log 15). -/
def Obligations.OtherSymbolIsRefused : Prop :=
  ∀ s, (¬ atWindowStart .zero s → exec .sym0 s = .refused .symbolNotNext) ∧
    (¬ atWindowStart .one s → exec .sym1 s = .refused .symbolNotNext)

/-! ## Whole-machine rules -/

/-- The transitions of `(session, bit_phase)` are those of R97, with their conditions: what each operation
does to the pair from a state of the R37 table. `RESET` is applied to the initial state only; a symbol is the
ten `T_SHAPE` passes that end a window. -/
def Obligations.PhasesMoveOnlyByTheTable : Prop :=
  ∀ i s t, Legal s → exec i s = .next t →
    match i with
    | .reset => s.booted = false
    | .poll | .bufwr _ _ | .setlen _ => t.session = s.session ∧ t.bitPhase = s.bitPhase
    | .start | .arm _ _ =>
      s.session = .idle ∧ s.bitPhase = .idle ∧ t.session = .sending ∧ t.bitPhase = .idle
    | .tIdle => s.session = .idle ∧ s.bitPhase = .idle ∧ t.session = .idle ∧ t.bitPhase = .idle
    | .tEntry => s.session = .sending ∧ s.bitPhase = .idle ∧ t.session = .sending ∧ t.bitPhase = .startBit
    | .tStartbit =>
      s.session = .sending ∧ s.bitPhase = .startBit ∧ t.session = .sending ∧
      t.bitPhase = if s.bitIndex = s.activeBitCount then .nextBit else .sending
    | .tShape =>
      s.session = .sending ∧ s.bitPhase = .sending ∧ t.session = .sending ∧
      t.bitPhase =
        if s.half = .low ∧ s.pulseTicks + 1 = threshold s.currentBit .low then .nextBit else .sending
    | .tNextbit =>
      s.session = .sending ∧ s.bitPhase = .nextBit ∧
      (s.bitIndex = s.activeBitCount → t.session = .resetGap ∧ t.bitPhase = .idle) ∧
      (s.bitIndex ≠ s.activeBitCount → t.session = .sending ∧ t.bitPhase = .sending)
    | .tGap =>
      s.session = .resetGap ∧ s.bitPhase = .idle ∧ t.bitPhase = .idle ∧
      t.session = if s.gapTicks + 1 = Config.params.resetTicks then .idle else .resetGap
    | .sym0 | .sym1 => s.session = .sending ∧ s.bitPhase = .sending ∧ t.session = .sending ∧ t.bitPhase = .nextBit

/-- `session` moves in three ways only: the foreground context takes it from Idle to Sending, and a tick from
Sending to ResetGap and from ResetGap to Idle (R21); so nothing cancels a session (R86, R142). -/
def Obligations.SessionMovesInThreeWaysOnly : Prop :=
  ∀ s t, s.booted = true → step s = .next t →
    t.session = s.session ∨
    (ForegroundTurn s ∧ s.session = .idle ∧ t.session = .sending) ∨
    (TickTurn s ∧ s.session = .sending ∧ t.session = .resetGap) ∨
    (TickTurn s ∧ s.session = .resetGap ∧ t.session = .idle)

/-- Phase ownership (R120): while `session = Idle` a tick changes no item, and while busy the foreground
context changes none, whatever it presents. -/
def Obligations.EachPhaseHasOneWriter : Prop :=
  ∀ s t, s.booted = true → step s = .next t →
    (TickTurn s → s.session = .idle → SameBlock s t) ∧
    (ForegroundTurn s → s.session ≠ .idle → SameBlock s t)

/-- A violation: the operation does not take place, the state keeps the mark and nothing else changes (R112). -/
def Obligations.ViolationChangesOnlyTheMark : Prop :=
  ∀ i s v m, exec i s = .refused (.violation v m) → m = { s with violation := some v }

/-- The mark is sticky: no operation but the initial `RESET` changes it, and a marked state takes no step
(R112). -/
def Obligations.ViolationMarkIsSticky : Prop :=
  (∀ i s t, exec i s = .next t → i ≠ .reset → t.violation = s.violation) ∧
  (∀ s v, s.violation = some v → step s = .refused (.violation v s))

/-- V6 is raised by no operation (R111, R140). -/
def Obligations.OverrunIsNeverRaised : Prop :=
  ∀ i s m, exec i s ≠ .refused (.violation .tickOverrun m)

/-- The parameters meet their bounds (R8, `ParamsOk` of R148). -/
def Obligations.ParametersMeetTheirBounds : Prop :=
  1 ≤ Config.params.maxLeds ∧ 3 * Config.params.maxLeds ≤ Config.params.bufCap ∧
  40 ≤ Config.params.resetTicks ∧ 8 * Config.params.bufCap < 2 ^ Config.params.wIdx

/-- The pulse table, and the window of ten passes for either bit value (R7, R62). -/
def Obligations.PulseTableFillsTheWindow : Prop :=
  threshold .zero .high = 3 ∧ threshold .zero .low = 7 ∧ threshold .one .high = 7 ∧ threshold .one .low = 3 ∧
  ∀ bit, threshold bit .high + threshold bit .low = 10

/-! ## Invariants -/

/-- The invariant holds after reset, and after a `RESET` of any initial state. -/
def Obligations.ResetEstablishesTheInvariant : Prop :=
  EngineInv State.reset ∧ ∀ s t, s.booted = false → exec .reset s = .next t → EngineInv t

/-- Every step keeps the invariant: the R37 table, the memory's canonical form, the length within the buffer,
`bit_index` within the length, `current_bit` the frame bit the engine is at, the line's level and the
window's levels. -/
def Obligations.StepKeepsTheInvariant : Prop :=
  ∀ s t, EngineInv s → step s = .next t → EngineInv t

/-- A tick is total (R90): in a state of the invariant the machine takes the tick's step, with no violation
and no other stop. -/
def Obligations.TickNeverStops : Prop :=
  ∀ s, EngineInv s → Running s → TickTurn s → ∃ t, step s = .next t

/-- In every state that an execution from reset leads to, whatever the program and the interleaving, Idle is
quiescent (R36), and the state is in the table of R37. -/
def Obligations.IdleIsQuiescentInEveryRun : Prop :=
  ∀ s, Reachable s → Running s ∧ Legal s ∧ (s.session = .idle → Quiescent s)

/-! ## Sessions -/

/-- A session ends: under the premises of R148 it is over after exactly the ticks of R100, busy at every point of
the interleaving before that, and then quiescent, with `bit_index = active_bit_count` and the frame as it was
(R100, R103). That ticks follow where the schedule is used up is log 2 and log 23. -/
def Obligations.SessionEndsAfterItsTicks : Prop :=
  ∀ q s, SessionStart q s →
    (∀ j, j < stepsToTick (sessionTicks s.activeBitCount) s.schedule →
      ∃ u, run j s = .next u ∧ u.session ≠ .idle) ∧
    ∃ t, atTick (sessionTicks s.activeBitCount) s = .next t ∧ Quiescent t ∧
      t.bitIndex = q.activeBitCount ∧ t.activeBitCount = q.activeBitCount ∧ t.buf = q.buf

/-- The bit windows carry the frame in order: bit `k`'s window begins after tick `2 + 11k`, and ten ticks
later it is closed and its levels are the symbol of frame bit `k` (R63, R99). The levels are read from the
model's window observation (log 16). -/
def Obligations.BitWindowsCarryTheFrameInOrder : Prop :=
  ∀ q s, SessionStart q s → ∀ k, k < s.activeBitCount →
    (∃ u, atTick (2 + 11 * k) s = .next u ∧ atWindowStart (bufBit Config.params s k) u ∧ u.bitIndex = k) ∧
    ∃ v, atTick (12 + 11 * k) s = .next v ∧ v.bitPhase = .nextBit ∧ v.bitIndex = k + 1 ∧
      v.window = windowLevels (bufBit Config.params s k)

/-- The waveform on the wire (R101): the line is LOW up to tick 2; then every bit takes 11 ticks, HIGH for its
HIGH threshold and LOW for the rest. -/
def Obligations.WireShowsElevenTicksPerBit : Prop :=
  ∀ q s, SessionStart q s →
    (∀ k, k ≤ 2 → ∃ u, atTick k s = .next u ∧ u.line = .low) ∧
    ∀ k j, k < s.activeBitCount → 1 ≤ j → j ≤ 11 →
      ∃ u, atTick (2 + 11 * k + j) s = .next u ∧
        u.line = if j ≤ threshold (bufBit Config.params s k) .high then .high else .low

/-- The empty frame (R144): its session drives no HIGH level and never shapes a bit. -/
def Obligations.EmptyFrameDrivesNoHigh : Prop :=
  ∀ q s, SessionStart q s → s.activeBitCount = 0 →
    ∀ k, k ≤ sessionTicks 0 → ∃ u, atTick k s = .next u ∧ u.line = .low ∧
      (0 < k → u.driven ≠ some .high) ∧ u.bitPhase ≠ .sending

/-- The reset gap (R96): from its start, exactly `RESET_TICKS` ticks, each driving LOW, wherever `POLL`s fall
among them, and `session` is Idle after the last and not before. -/
def Obligations.ResetGapHoldsTheLineLow : Prop :=
  ∀ s, Running s → Legal s → QuietFor Config.params.resetTicks s → s.session = .resetGap → s.gapTicks = 0 →
    ∀ k, 0 < k → k ≤ Config.params.resetTicks →
      ∃ t, atTick k s = .next t ∧ t.line = .low ∧ t.driven = some .low ∧
        (k < Config.params.resetTicks → t.session = .resetGap ∧ t.gapTicks = k) ∧
        (k = Config.params.resetTicks → t.session = .idle ∧ t.gapTicks = 0)

/-- The line after the last HIGH (R102): the last bit's last HIGH pass is followed by LOW for exactly
`threshold(last bit, Low) + 1 + RESET_TICKS` ticks, the last of which ends the session. -/
def Obligations.LineIsLowFromTheLastHighToIdle : Prop :=
  ∀ q s n, SessionStart q s → s.activeBitCount = n + 1 →
    ∃ last, last + (threshold (bufBit Config.params s n) .low + 1 + Config.params.resetTicks) = sessionTicks (n + 1) ∧
      (∃ u, atTick last s = .next u ∧ u.line = .high) ∧
      ∀ k, last < k → k ≤ sessionTicks (n + 1) → ∃ u, atTick k s = .next u ∧ u.line = .low

/-- The pass sequence of a session, by what each pass drives (R63, R99): the two entry passes and every
`T_NEXTBIT` pass drive nothing, the ten passes of bit `k`'s window drive the symbol of frame bit `k`, and the
passes of the gap drive LOW. -/
def Obligations.PassesDriveTheSymbolsInOrder : Prop :=
  ∀ q s, SessionStart q s → 0 < s.activeBitCount →
    (∀ k, 1 ≤ k → k ≤ 2 → ∃ u, atTick k s = .next u ∧ u.driven = none) ∧
    (∀ k j, k < s.activeBitCount → j < 10 →
      ∃ u, atTick (3 + 11 * k + j) s = .next u ∧
        u.driven = some (if j < threshold (bufBit Config.params s k) .high then .high else .low)) ∧
    (∀ k, k < s.activeBitCount → ∃ u, atTick (13 + 11 * k) s = .next u ∧ u.driven = none) ∧
    ∀ k, 3 + 11 * s.activeBitCount ≤ k → k ≤ sessionTicks s.activeBitCount →
      ∃ u, atTick k s = .next u ∧ u.driven = some .low

/-- Bytes beyond the frame are not sent (R81, R139): two sessions, with frames of one length that agree on the
bytes holding frame bits, whatever else differs and wherever their `POLL`s fall, show the same line, the same
drives and the same phase at every tick. -/
def Obligations.BytesBeyondTheFrameAreNotSent : Prop :=
  ∀ q q' s s', SessionStart q s → SessionStart q' s' → s.activeBitCount = s'.activeBitCount →
    (∀ a, 8 * a < s.activeBitCount → readByte Config.params s a = readByte Config.params s' a) →
    ∀ k, k ≤ sessionTicks s.activeBitCount →
      ∃ u u', atTick k s = .next u ∧ atTick k s' = .next u' ∧ u.line = u'.line ∧ u.session = u'.session ∧
        u.bitPhase = u'.bitPhase ∧ (0 < k → u.driven = u'.driven)

/-- Polling does not disturb the engine (R84): while the foreground context presents nothing but `POLL`, at every
point of the interleaving the state is the one that as many ticks alone lead to, but for the host port's result
and what is still to come, and the turns taken are spent. -/
def Obligations.PollsDoNotDisturbTheEngine : Prop :=
  ∀ n j s, EngineInv s → Running s → QuietFor n s → j ≤ stepsToTick n s.schedule →
    ∃ t u, run j s = .next t ∧
      run (ticksBy j s.schedule) { s with schedule := [], program := [] } = .next u ∧
      t = { u with hRdata := t.hRdata, program := t.program, schedule := s.schedule.drop j }

/-- The session premises are met where the spec says a program meets them (R148): right after a `START` from the
reset state, or from any quiescent state an execution leads to, with a host that only polls. -/
def Obligations.ReachableStartsMeetThePremises : Prop :=
  ∀ q, Reachable q → q.session = .idle →
    ∃ s, exec .start q = .next s ∧ s.activeBitCount = q.activeBitCount ∧
      (HostQuiet s → SessionStart q s)
end

