-- ==== Sys2Proof/Laws/Decode.lean ====
section
/-!
SUPPORT. Sys2Proof/Laws/Decode.lean: the tables of the formats are unambiguous, and what the placing of a host
operation presents.
-/

namespace Sys2Proof

/-- No selector matches two rows of the `tick` table. -/
theorem tickRows_pairwise_disjoint :
    tickRows.Pairwise fun r r' => ∀ sel : BitVec 4, ¬ (sel &&& r.1 = r.2.1 ∧ sel &&& r'.1 = r'.2.1) := by
  decide

/-- The two rows of the `symbol` table differ. -/
theorem symbolLevels_injective {b c : FrameBit} (h : symbolLevels b = symbolLevels c) : b = c := by
  cases b <;> cases c <;> first | rfl | exact absurd h (by decide)

/-- A tick's selector decodes to the arm of the state, and never to a rejection. -/
theorem decode_selector (session : Session) (phase : BitPhase) :
    decode (.tick (selector session phase)) = .ok
      (match session, phase with
       | .idle, _ => .tIdle
       | .sending, .idle => .tEntry
       | .sending, .startBit => .tStartbit
       | .sending, .sending => .tShape
       | .sending, .nextBit => .tNextbit
       | .resetGap, _ => .tGap) := by
  cases session <;> cases phase <;> rfl

/-- What the first word of a sequence, and the rest, decode to. -/
theorem decodeAll_cons_ok {w : PortWord} {ws : List PortWord} {i : Instr} {is : List Instr}
    (hw : decode w = .ok i) (hws : decodeAll ws = .ok is) : decodeAll (w :: ws) = .ok (i :: is) := by
  simp [decodeAll, hw, hws]

theorem bufwrs_length (i : Nat) (bs : List Byte) : (bufwrs i bs).length = bs.length := by
  induction bs generalizing i with
  | nil => rfl
  | cons b bs ih => simp [bufwrs, ih]

theorem bufwrs_getElem? (i k : Nat) (bs : List Byte) :
    (bufwrs i bs)[k]? = bs[k]?.map fun b => Instr.bufwr (i + k) b := by
  induction bs generalizing i k with
  | nil => rfl
  | cons b bs ih =>
    cases k with
    | zero => rfl
    | succ k => simp [bufwrs, ih, Nat.add_assoc, Nat.add_comm 1 k]

end Sys2Proof
end

