-- ==== Sys2Proof/Laws/State.lean ====
section
/-!
SUPPORT. Sys2Proof/Laws/State.lean: what each named update of the state does to each field.
-/

namespace Sys2Proof.Machine

@[simp] theorem mark_session (v : Violation) (s : State) : (mark v s).session = s.session := rfl
@[simp] theorem mark_bitPhase (v : Violation) (s : State) : (mark v s).bitPhase = s.bitPhase := rfl
@[simp] theorem mark_currentBit (v : Violation) (s : State) : (mark v s).currentBit = s.currentBit := rfl
@[simp] theorem mark_half (v : Violation) (s : State) : (mark v s).half = s.half := rfl
@[simp] theorem mark_pulseTicks (v : Violation) (s : State) : (mark v s).pulseTicks = s.pulseTicks := rfl
@[simp] theorem mark_bitIndex (v : Violation) (s : State) : (mark v s).bitIndex = s.bitIndex := rfl
@[simp] theorem mark_gapTicks (v : Violation) (s : State) : (mark v s).gapTicks = s.gapTicks := rfl
@[simp] theorem mark_line (v : Violation) (s : State) : (mark v s).line = s.line := rfl
@[simp] theorem mark_activeBitCount (v : Violation) (s : State) : (mark v s).activeBitCount = s.activeBitCount := rfl
@[simp] theorem mark_buf (v : Violation) (s : State) : (mark v s).buf = s.buf := rfl
@[simp] theorem mark_hRdata (v : Violation) (s : State) : (mark v s).hRdata = s.hRdata := rfl
@[simp] theorem mark_driven (v : Violation) (s : State) : (mark v s).driven = s.driven := rfl
@[simp] theorem mark_window (v : Violation) (s : State) : (mark v s).window = s.window := rfl
@[simp] theorem mark_violation (v : Violation) (s : State) : (mark v s).violation = some v := rfl
@[simp] theorem mark_booted (v : Violation) (s : State) : (mark v s).booted = s.booted := rfl
@[simp] theorem mark_program (v : Violation) (s : State) : (mark v s).program = s.program := rfl
@[simp] theorem mark_schedule (v : Violation) (s : State) : (mark v s).schedule = s.schedule := rfl

@[simp] theorem beginPass_session (s : State) : (beginPass s).session = s.session := rfl
@[simp] theorem beginPass_bitPhase (s : State) : (beginPass s).bitPhase = s.bitPhase := rfl
@[simp] theorem beginPass_currentBit (s : State) : (beginPass s).currentBit = s.currentBit := rfl
@[simp] theorem beginPass_half (s : State) : (beginPass s).half = s.half := rfl
@[simp] theorem beginPass_pulseTicks (s : State) : (beginPass s).pulseTicks = s.pulseTicks := rfl
@[simp] theorem beginPass_bitIndex (s : State) : (beginPass s).bitIndex = s.bitIndex := rfl
@[simp] theorem beginPass_gapTicks (s : State) : (beginPass s).gapTicks = s.gapTicks := rfl
@[simp] theorem beginPass_line (s : State) : (beginPass s).line = s.line := rfl
@[simp] theorem beginPass_activeBitCount (s : State) : (beginPass s).activeBitCount = s.activeBitCount := rfl
@[simp] theorem beginPass_buf (s : State) : (beginPass s).buf = s.buf := rfl
@[simp] theorem beginPass_hRdata (s : State) : (beginPass s).hRdata = s.hRdata := rfl
@[simp] theorem beginPass_driven (s : State) : (beginPass s).driven = none := rfl
@[simp] theorem beginPass_window (s : State) : (beginPass s).window = s.window := rfl
@[simp] theorem beginPass_violation (s : State) : (beginPass s).violation = s.violation := rfl
@[simp] theorem beginPass_booted (s : State) : (beginPass s).booted = s.booted := rfl
@[simp] theorem beginPass_program (s : State) : (beginPass s).program = s.program := rfl
@[simp] theorem beginPass_schedule (s : State) : (beginPass s).schedule = s.schedule := rfl

@[simp] theorem drive_session (l : Level) (s : State) : (drive l s).session = s.session := rfl
@[simp] theorem drive_bitPhase (l : Level) (s : State) : (drive l s).bitPhase = s.bitPhase := rfl
@[simp] theorem drive_currentBit (l : Level) (s : State) : (drive l s).currentBit = s.currentBit := rfl
@[simp] theorem drive_half (l : Level) (s : State) : (drive l s).half = s.half := rfl
@[simp] theorem drive_pulseTicks (l : Level) (s : State) : (drive l s).pulseTicks = s.pulseTicks := rfl
@[simp] theorem drive_bitIndex (l : Level) (s : State) : (drive l s).bitIndex = s.bitIndex := rfl
@[simp] theorem drive_gapTicks (l : Level) (s : State) : (drive l s).gapTicks = s.gapTicks := rfl
@[simp] theorem drive_line (l : Level) (s : State) : (drive l s).line = l := rfl
@[simp] theorem drive_activeBitCount (l : Level) (s : State) : (drive l s).activeBitCount = s.activeBitCount := rfl
@[simp] theorem drive_buf (l : Level) (s : State) : (drive l s).buf = s.buf := rfl
@[simp] theorem drive_hRdata (l : Level) (s : State) : (drive l s).hRdata = s.hRdata := rfl
@[simp] theorem drive_driven (l : Level) (s : State) : (drive l s).driven = some l := rfl
@[simp] theorem drive_window (l : Level) (s : State) : (drive l s).window = s.window := rfl
@[simp] theorem drive_violation (l : Level) (s : State) : (drive l s).violation = s.violation := rfl
@[simp] theorem drive_booted (l : Level) (s : State) : (drive l s).booted = s.booted := rfl
@[simp] theorem drive_program (l : Level) (s : State) : (drive l s).program = s.program := rfl
@[simp] theorem drive_schedule (l : Level) (s : State) : (drive l s).schedule = s.schedule := rfl

@[simp] theorem writeByte_session (P : Params) (a : Nat) (v : Byte) (s : State) : (writeByte P a v s).session = s.session := rfl
@[simp] theorem writeByte_bitPhase (P : Params) (a : Nat) (v : Byte) (s : State) : (writeByte P a v s).bitPhase = s.bitPhase := rfl
@[simp] theorem writeByte_currentBit (P : Params) (a : Nat) (v : Byte) (s : State) : (writeByte P a v s).currentBit = s.currentBit := rfl
@[simp] theorem writeByte_half (P : Params) (a : Nat) (v : Byte) (s : State) : (writeByte P a v s).half = s.half := rfl
@[simp] theorem writeByte_pulseTicks (P : Params) (a : Nat) (v : Byte) (s : State) : (writeByte P a v s).pulseTicks = s.pulseTicks := rfl
@[simp] theorem writeByte_bitIndex (P : Params) (a : Nat) (v : Byte) (s : State) : (writeByte P a v s).bitIndex = s.bitIndex := rfl
@[simp] theorem writeByte_gapTicks (P : Params) (a : Nat) (v : Byte) (s : State) : (writeByte P a v s).gapTicks = s.gapTicks := rfl
@[simp] theorem writeByte_line (P : Params) (a : Nat) (v : Byte) (s : State) : (writeByte P a v s).line = s.line := rfl
@[simp] theorem writeByte_activeBitCount (P : Params) (a : Nat) (v : Byte) (s : State) : (writeByte P a v s).activeBitCount = s.activeBitCount := rfl
@[simp] theorem writeByte_buf (P : Params) (a : Nat) (v : Byte) (s : State) : (writeByte P a v s).buf = Memory.write P.bufInit s.buf a v := rfl
@[simp] theorem writeByte_hRdata (P : Params) (a : Nat) (v : Byte) (s : State) : (writeByte P a v s).hRdata = s.hRdata := rfl
@[simp] theorem writeByte_driven (P : Params) (a : Nat) (v : Byte) (s : State) : (writeByte P a v s).driven = s.driven := rfl
@[simp] theorem writeByte_window (P : Params) (a : Nat) (v : Byte) (s : State) : (writeByte P a v s).window = s.window := rfl
@[simp] theorem writeByte_violation (P : Params) (a : Nat) (v : Byte) (s : State) : (writeByte P a v s).violation = s.violation := rfl
@[simp] theorem writeByte_booted (P : Params) (a : Nat) (v : Byte) (s : State) : (writeByte P a v s).booted = s.booted := rfl
@[simp] theorem writeByte_program (P : Params) (a : Nat) (v : Byte) (s : State) : (writeByte P a v s).program = s.program := rfl
@[simp] theorem writeByte_schedule (P : Params) (a : Nat) (v : Byte) (s : State) : (writeByte P a v s).schedule = s.schedule := rfl

@[simp] theorem resetState_session (s : State) : (resetState s).session = State.reset.session := rfl
@[simp] theorem resetState_bitPhase (s : State) : (resetState s).bitPhase = State.reset.bitPhase := rfl
@[simp] theorem resetState_currentBit (s : State) : (resetState s).currentBit = State.reset.currentBit := rfl
@[simp] theorem resetState_half (s : State) : (resetState s).half = State.reset.half := rfl
@[simp] theorem resetState_pulseTicks (s : State) : (resetState s).pulseTicks = State.reset.pulseTicks := rfl
@[simp] theorem resetState_bitIndex (s : State) : (resetState s).bitIndex = State.reset.bitIndex := rfl
@[simp] theorem resetState_gapTicks (s : State) : (resetState s).gapTicks = State.reset.gapTicks := rfl
@[simp] theorem resetState_line (s : State) : (resetState s).line = State.reset.line := rfl
@[simp] theorem resetState_activeBitCount (s : State) : (resetState s).activeBitCount = State.reset.activeBitCount := rfl
@[simp] theorem resetState_buf (s : State) : (resetState s).buf = State.reset.buf := rfl
@[simp] theorem resetState_hRdata (s : State) : (resetState s).hRdata = State.reset.hRdata := rfl
@[simp] theorem resetState_driven (s : State) : (resetState s).driven = State.reset.driven := rfl
@[simp] theorem resetState_window (s : State) : (resetState s).window = State.reset.window := rfl
@[simp] theorem resetState_violation (s : State) : (resetState s).violation = State.reset.violation := rfl
@[simp] theorem resetState_booted (s : State) : (resetState s).booted = State.reset.booted := rfl
@[simp] theorem resetState_program (s : State) : (resetState s).program = s.program := rfl
@[simp] theorem resetState_schedule (s : State) : (resetState s).schedule = s.schedule := rfl

/-! Taking the next word spends a turn, and a foreground turn a word; nothing else. -/

theorem fetchRest_eq (s : State) :
    fetchRest s = { s with schedule := (fetchRest s).schedule, program := (fetchRest s).program } := by
  unfold fetchRest
  split <;> rfl

@[simp] theorem fetchRest_session (s : State) : (fetchRest s).session = s.session := by
  rw [fetchRest_eq]

@[simp] theorem fetchRest_bitPhase (s : State) : (fetchRest s).bitPhase = s.bitPhase := by
  rw [fetchRest_eq]

@[simp] theorem fetchRest_currentBit (s : State) : (fetchRest s).currentBit = s.currentBit := by
  rw [fetchRest_eq]

@[simp] theorem fetchRest_half (s : State) : (fetchRest s).half = s.half := by
  rw [fetchRest_eq]

@[simp] theorem fetchRest_pulseTicks (s : State) : (fetchRest s).pulseTicks = s.pulseTicks := by
  rw [fetchRest_eq]

@[simp] theorem fetchRest_bitIndex (s : State) : (fetchRest s).bitIndex = s.bitIndex := by
  rw [fetchRest_eq]

@[simp] theorem fetchRest_gapTicks (s : State) : (fetchRest s).gapTicks = s.gapTicks := by
  rw [fetchRest_eq]

@[simp] theorem fetchRest_line (s : State) : (fetchRest s).line = s.line := by
  rw [fetchRest_eq]

@[simp] theorem fetchRest_activeBitCount (s : State) : (fetchRest s).activeBitCount = s.activeBitCount := by
  rw [fetchRest_eq]

@[simp] theorem fetchRest_buf (s : State) : (fetchRest s).buf = s.buf := by
  rw [fetchRest_eq]

@[simp] theorem fetchRest_hRdata (s : State) : (fetchRest s).hRdata = s.hRdata := by
  rw [fetchRest_eq]

@[simp] theorem fetchRest_driven (s : State) : (fetchRest s).driven = s.driven := by
  rw [fetchRest_eq]

@[simp] theorem fetchRest_window (s : State) : (fetchRest s).window = s.window := by
  rw [fetchRest_eq]

@[simp] theorem fetchRest_violation (s : State) : (fetchRest s).violation = s.violation := by
  rw [fetchRest_eq]

@[simp] theorem fetchRest_booted (s : State) : (fetchRest s).booted = s.booted := by
  rw [fetchRest_eq]

theorem fetchRest_schedule (s : State) : (fetchRest s).schedule = s.schedule.tail := by
  unfold fetchRest
  split <;> simp_all

theorem fetchRest_of_schedule_nil {s : State} (h : s.schedule = []) : fetchRest s = s := by
  simp [fetchRest, h]

end Sys2Proof.Machine
end

