-- ==== Sys2Proof/Laws/Ops.lean ====
section
/-!
SUPPORT. Sys2Proof/Laws/Ops.lean: for each shared operation, what it can do, said once.
-/

namespace Sys2Proof.Machine

/-! ## Memory -/

section Memory

variable (init : Nat → Byte)

theorem Memory.read_of_forall_lt {m : List Host.Cell} {a : Nat} (h : ∀ c ∈ m, a < c.1) :
    Memory.read init m a = init a := by
  induction m with
  | nil => rfl
  | cons c m ih =>
    have hc : a < c.1 := h c (by simp)
    rw [Memory.read, if_neg (by omega)]
    exact ih fun d hd => h d (by simp [hd])

theorem Memory.read_insert (m : List Host.Cell) (a : Nat) (v : Byte) (b : Nat) :
    Memory.read init (Memory.insert m a v) b = if b = a then v else Memory.read init m b := by
  induction m with
  | nil =>
    simp only [Memory.insert, Memory.read, eq_comm (a := a)]
  | cons c m ih =>
    rw [Memory.insert]
    split
    · simp only [Memory.read, eq_comm]
    · split
      · subst a
        by_cases hb : c.1 = b
        · simp [Memory.read, hb]
        · simp [Memory.read, hb, Ne.symm hb]
      · simp only [Memory.read, ih]; split <;> split <;> simp_all

theorem Memory.read_erase (m : List Host.Cell) (a b : Nat) :
    Memory.read init (Memory.erase m a) b = if b = a then init a else Memory.read init m b := by
  induction m with
  | nil => by_cases hb : b = a <;> simp [Memory.erase, Memory.read, hb]
  | cons c m ih =>
    by_cases hc : c.1 = a
    · rw [Memory.erase, List.filter_cons_of_neg (by simpa using hc)]
      refine ih.trans ?_
      by_cases hb : b = a
      · simp [hb]
      · rw [if_neg hb, if_neg hb, Memory.read, if_neg (by omega)]
    · rw [Memory.erase, List.filter_cons_of_pos (by simpa using hc), Memory.read, Memory.read]
      by_cases hb : c.1 = b
      · rw [if_pos hb, if_pos hb, if_neg (by omega)]
      · rw [if_neg hb, if_neg hb]
        exact ih

/-- Read after write: the byte stored, and every other byte as before. -/
theorem Memory.read_write (m : List Host.Cell) (a : Nat) (v : Byte) (b : Nat) :
    Memory.read init (Memory.write init m a v) b = if b = a then v else Memory.read init m b := by
  rw [Memory.write]
  split
  · rename_i hv
    rw [Memory.read_erase, hv]
  · exact Memory.read_insert init m a v b

theorem Memory.mem_erase {m : List Host.Cell} {a : Nat} {c : Host.Cell} (h : c ∈ Memory.erase m a) : c ∈ m :=
  (List.mem_filter.1 h).1

theorem Memory.mem_insert {m : List Host.Cell} {a : Nat} {v : Byte} {c : Host.Cell}
    (h : c ∈ Memory.insert m a v) : c = (a, v) ∨ c ∈ m := by
  induction m with
  | nil => simpa [Memory.insert] using h
  | cons d m ih =>
    rw [Memory.insert] at h
    split at h
    · simpa using h
    · split at h
      · rcases List.mem_cons.1 h with rfl | h
        · exact .inl rfl
        · exact .inr (List.mem_cons_of_mem _ h)
      · rcases List.mem_cons.1 h with rfl | h
        · exact .inr (by simp)
        · exact (ih h).imp id (List.mem_cons_of_mem _)

theorem Memory.pairwise_erase {m : List Host.Cell} (h : m.Pairwise fun x y => x.1 < y.1) (a : Nat) :
    (Memory.erase m a).Pairwise fun x y => x.1 < y.1 := h.filter _

theorem Memory.pairwise_insert {m : List Host.Cell} (h : m.Pairwise fun x y => x.1 < y.1) (a : Nat) (v : Byte) :
    (Memory.insert m a v).Pairwise fun x y => x.1 < y.1 := by
  induction m with
  | nil => simp [Memory.insert]
  | cons d m ih =>
    have hd := List.pairwise_cons.1 h
    rw [Memory.insert]
    split
    · rename_i had
      refine List.pairwise_cons.2 ⟨fun c hc => ?_, h⟩
      rcases List.mem_cons.1 hc with rfl | hc
      · exact had
      · exact had.trans (hd.1 c hc)
    · split
      · rename_i had
        exact List.pairwise_cons.2 ⟨fun c hc => had ▸ hd.1 c hc, hd.2⟩
      · refine List.pairwise_cons.2 ⟨fun c hc => ?_, ih hd.2⟩
        rcases Memory.mem_insert hc with rfl | hc
        · show d.1 < a; omega
        · exact hd.1 c hc

theorem Memory.mem_of_mem_write {m : List Host.Cell} {a : Nat} {v : Byte} {c : Host.Cell}
    (h : c ∈ Memory.write init m a v) : c = (a, v) ∨ c ∈ m := by
  rw [Memory.write] at h
  split at h
  · exact .inr (Memory.mem_erase h)
  · exact Memory.mem_insert h

/-- A write keeps the canonical form. -/
theorem Memory.wf_write {m : List Host.Cell} (h : Memory.wf init m) (a : Nat) (v : Byte) :
    Memory.wf init (Memory.write init m a v) := by
  rw [Memory.write]
  split
  · exact ⟨Memory.pairwise_erase h.1 a, fun c hc => h.2 c (Memory.mem_erase hc)⟩
  · rename_i hv
    refine ⟨Memory.pairwise_insert h.1 a v, fun c hc => ?_⟩
    rcases Memory.mem_insert hc with rfl | hc
    · exact hv
    · exact h.2 c hc

/-- The memory after reset has the canonical form. -/
theorem Memory.wf_reset : Memory.wf init State.reset.buf := by
  simp [Memory.wf, State.reset]

end Memory

/-- Two canonical memories that read alike are equal data. -/
theorem Memory.eq_of_read_eq (init : Nat → Byte) :
    ∀ {m n : List Host.Cell}, Memory.wf init m → Memory.wf init n →
      (∀ a, Memory.read init m a = Memory.read init n a) → m = n
  | [], [], _, _, _ => rfl
  | [], (b, w) :: n, _, hn, h => by
    exact absurd (h b).symm (by simpa [Memory.read] using hn.2 (b, w) (by simp))
  | (a, v) :: m, [], hm, _, h => by
    exact absurd (h a) (by simpa [Memory.read] using hm.2 (a, v) (by simp))
  | (a, v) :: m, (b, w) :: n, hm, hn, h => by
    have ham := List.pairwise_cons.1 hm.1
    have hbn := List.pairwise_cons.1 hn.1
    have hv : v ≠ init a := hm.2 (a, v) (by simp)
    have hw : w ≠ init b := hn.2 (b, w) (by simp)
    have hab : a = b := by
      rcases Nat.lt_trichotomy a b with hlt | heq | hgt
      · have := h a
        rw [Memory.read, if_pos rfl, Memory.read_of_forall_lt init] at this
        · exact absurd this hv
        · intro c hc
          rcases List.mem_cons.1 hc with rfl | hc
          · exact hlt
          · exact hlt.trans (hbn.1 c hc)
      · exact heq
      · have := h b
        rw [Memory.read_of_forall_lt init, Memory.read, if_pos rfl] at this
        · exact absurd this.symm hw
        · intro c hc
          rcases List.mem_cons.1 hc with rfl | hc
          · exact hgt
          · exact hgt.trans (ham.1 c hc)
    subst hab
    have hvw : v = w := by simpa [Memory.read] using h a
    subst hvw
    rw [Memory.eq_of_read_eq init ⟨ham.2, fun c hc => hm.2 c (by simp [hc])⟩
      ⟨hbn.2, fun c hc => hn.2 c (by simp [hc])⟩ fun c => ?_]
    by_cases hc : a = c
    · subst hc
      rw [Memory.read_of_forall_lt init ham.1, Memory.read_of_forall_lt init hbn.1]
    · simpa [Memory.read, hc] using h c

/-! ## Sequencing, violations, passes -/

theorem andThen_eq_next {o : Out} {f : State → Out} {t : State} :
    andThen o f = .next t ↔ ∃ u, o = .next u ∧ f u = .next t := by
  cases o <;> simp [andThen]

@[simp] theorem andThen_next (s : State) (f : State → Out) : andThen (.next s) f = f s := rfl

@[simp] theorem raise_ne_next (v : Violation) (s t : State) : raise v s ≠ .next t := by simp [raise]

/-- What a pass that answers a next state did: the state was in the table, its selector picked the arm, and
the arm's body answered. -/
theorem runPass_eq_next {P : Params} {sel : Prop} [Decidable sel] {s t : State} {body : State → Out} :
    runPass P sel s body = .next t ↔ legal P s = true ∧ sel ∧ body (beginPass s) = .next t := by
  unfold runPass
  split
  · split <;> simp_all
  · simp_all

/-- A pass from a state of the table whose selector picks the arm is the arm's body. -/
theorem runPass_of_legal {P : Params} {sel : Prop} [Decidable sel] {s : State} {body : State → Out}
    (hl : legal P s = true) (hs : sel) : runPass P sel s body = body (beginPass s) := by
  simp [runPass, hl, hs]

theorem fetching_eq_next {P : Params} {k : Nat} {s t : State} {o : Out} :
    fetching P k s o = .next t ↔ k < bufBits P ∧ o = .next t := by
  unfold fetching
  split <;> simp_all

/-- What a `BUFWR` that answers a next state did. -/
theorem bufwr_eq_next {P : Params} {i : Nat} {v : Byte} {s t : State} :
    bufwr P i v s = .next t ↔ i < P.bufCap ∧ s.session = .idle ∧ t = writeByte P i v s := by
  unfold bufwr
  split
  · simp only [raise_ne_next, false_iff]; omega
  · split
    · simp_all
    · simp_all [eq_comm]

/-- What a `SETLEN` that answers a next state did. -/
theorem setlen_eq_next {P : Params} {n : Nat} {s t : State} :
    setlen P n s = .next t ↔ n ≤ bufBits P ∧ s.session = .idle ∧ t = { s with activeBitCount := n } := by
  unfold setlen
  split
  · simp only [raise_ne_next, false_iff]; omega
  · split
    · simp_all
    · simp_all [eq_comm]

/-- What a `START` that answers a next state did. -/
theorem execStart_eq_next {s t : State} :
    execStart s = .next t ↔ s.session = .idle ∧ t = { s with session := .sending } := by
  unfold execStart
  split <;> simp_all [eq_comm (a := t)]

/-- A byte read after a byte written. -/
theorem readByte_writeByte (P : Params) (a : Nat) (v : Byte) (s : State) (b : Nat) :
    readByte P (writeByte P a v s) b = if b = a then v else readByte P s b :=
  Memory.read_write P.bufInit s.buf a v b

/-- `BUFWR`s in a row write the buffer alone. -/
theorem bufwrAll_frame {P : Params} : ∀ {bs : List Byte} {i : Nat} {s t : State},
    bufwrAll P i bs s = .next t → t = { s with buf := t.buf }
  | [], _, _, _, h => by cases h; rfl
  | b :: bs, i, s, t, h => by
    obtain ⟨u, hu, h⟩ := andThen_eq_next.1 h
    obtain ⟨-, -, rfl⟩ := bufwr_eq_next.1 hu
    rw [bufwrAll_frame h]
    rfl

/-- `BUFWR`s in a row, within the buffer and from Idle, answer a next state, in which the bytes from `i` on
are those given and every other byte is as before. -/
theorem bufwrAll_spec (P : Params) : ∀ (bs : List Byte) (i : Nat) (s : State),
    i + bs.length ≤ P.bufCap → s.session = .idle →
    ∃ t, bufwrAll P i bs s = .next t ∧
      ∀ a, readByte P t a = if h : i ≤ a ∧ a - i < bs.length then bs[a - i]'h.2 else readByte P s a
  | [], _, s, _, _ => ⟨s, rfl, by simp⟩
  | b :: bs, i, s, hi, hs => by
    rw [List.length_cons] at hi
    obtain ⟨t, ht, hr⟩ := bufwrAll_spec P bs (i + 1) (writeByte P i b s) (by omega) hs
    refine ⟨t, by rw [bufwrAll, bufwr_eq_next.2 ⟨by omega, hs, rfl⟩, andThen_next, ht], fun a => ?_⟩
    rw [hr, readByte_writeByte]
    rcases Nat.lt_trichotomy a i with h | rfl | h
    · rw [dif_neg (by omega), dif_neg (by omega), if_neg (by omega)]
    · simp
    · obtain ⟨d, rfl⟩ : ∃ d, a = i + d + 1 := ⟨a - i - 1, by omega⟩
      have h1 : i + d + 1 - (i + 1) = d := by omega
      have h2 : i + d + 1 - i = d + 1 := by omega
      simp only [h1, h2, List.length_cons, Nat.add_lt_add_iff_right, List.getElem_cons_succ]
      by_cases hd : d < bs.length
      · rw [dif_pos ⟨by omega, hd⟩, dif_pos ⟨by omega, hd⟩]
      · rw [dif_neg (by omega), dif_neg (by omega), if_neg (by omega)]

/-- What an `ARM` that answers a next state did. -/
theorem arm_eq_next {P : Params} {n : Nat} {colors : List Byte} {s t : State} (h : arm P n colors s = .next t) :
    n ≤ P.maxLeds ∧ colors.length = armBytes n ∧ s.session = .idle ∧
      ∃ u, bufwrAll P 0 colors s = .next u ∧
        t = { s with buf := u.buf, activeBitCount := armBits n, session := .sending } := by
  unfold arm at h
  split at h
  · simp at h
  · rename_i hx
    obtain ⟨v, hv, hs⟩ := andThen_eq_next.1 h
    obtain ⟨u, hu, hv⟩ := andThen_eq_next.1 hv
    obtain ⟨-, hi, rfl⟩ := setlen_eq_next.1 hv
    obtain ⟨-, rfl⟩ := execStart_eq_next.1 hs
    have hf := bufwrAll_frame hu
    refine ⟨by omega, not_not.1 fun hc => hx (.inr hc), by rw [hf] at hi; exact hi, u, hu, by rw [hf]⟩

/-- A pass that raises a violation raised V7, or its arm's body raised it. -/
theorem runPass_eq_violation {P : Params} {sel : Prop} [Decidable sel] {s m : State} {body : State → Out}
    {v : Violation} (h : runPass P sel s body = .refused (.violation v m)) :
    (legal P s = false ∧ v = .illegalState (stateTuple s) ∧ m = mark v s) ∨
      (legal P s = true ∧ sel ∧ body (beginPass s) = .refused (.violation v m)) := by
  unfold runPass at h
  split at h
  · split at h
    · exact .inr ⟨‹_›, ‹_›, h⟩
    · cases h
  · cases h
    exact .inl ⟨by simp_all, rfl, rfl⟩

/-! ## Operands -/

theorem threshold_pos (bit : FrameBit) (half : Half) : 0 < threshold bit half := by
  cases bit <;> cases half <;> decide

theorem resetTicks_pos (P : Params) : 0 < P.resetTicks := by
  simp [Params.resetTicks, Config.resetMinTicks]

theorem bufCap_pos (P : Params) : 0 < P.bufCap := by
  simp [Params.bufCap, Config.bytesPerLed, Params.maxLeds]

theorem armBytes_le_bufCap {P : Params} {n : Nat} (h : n ≤ P.maxLeds) : armBytes n ≤ P.bufCap := by
  simp only [armBytes, Params.bufCap, Config.bytesPerLed]; omega

theorem armBits_le_bufBits {P : Params} {n : Nat} (h : n ≤ P.maxLeds) : armBits n ≤ bufBits P := by
  simp only [armBits, bufBits, Params.bufCap, Config.bytesPerLed, Config.bitsPerLed]; omega

/-- A bit of a byte, by its place. -/
theorem bitOf_eq (b : Byte) (off : Nat) : bitOf b off = if b.getLsbD off then .one else .zero := by
  unfold bitOf
  congr 1
  rw [BitVec.and_one_eq_setWidth_ofBool_getLsbD]
  cases h : b.getLsbD off <;> simp [h]

end Sys2Proof.Machine
end

