-- ==== Sys2Proof/Laws/PerInstr.lean ====
section
/-!
SUPPORT. Sys2Proof/Laws/PerInstr.lean: a family of statements made per operation, about it as syntax.
-/

namespace Sys2Proof.Laws.Format

/-- The format that a word belongs to (30_encoding.md R60). -/
def formatOf : PortWord → Nat
  | .reset _ => 0
  | .host _ => 1
  | .tick _ => 2
  | .symbol _ => 3

/-- Every word of the operation is of one format, and it has at least one word. -/
def Statement (i : Instr) : Prop := encode i ≠ [] ∧ ∃ f, ∀ w ∈ encode i, formatOf w = f

theorem reset : Statement .reset := ⟨by simp [encode, primitives, encodeWord], 0, by simp [encode, primitives, encodeWord, formatOf]⟩

theorem poll : Statement .poll := ⟨by simp [encode, primitives, encodeWord], 1, by simp [encode, primitives, encodeWord, formatOf]⟩

theorem bufwr (i : Nat) (v : Byte) : Statement (.bufwr i v) :=
  ⟨by simp [encode, primitives, encodeWord], 1, by simp [encode, primitives, encodeWord, formatOf]⟩

theorem setlen (n : Nat) : Statement (.setlen n) :=
  ⟨by simp [encode, primitives, encodeWord], 1, by simp [encode, primitives, encodeWord, formatOf]⟩

theorem start : Statement .start := ⟨by simp [encode, primitives, encodeWord], 1, by simp [encode, primitives, encodeWord, formatOf]⟩

/-- The words of `BUFWR`s are host words. -/
theorem formatOf_bufwrs (i : Nat) (bs : List Byte) :
    ∀ w ∈ (bufwrs i bs).filterMap encodeWord, formatOf w = 1 := by
  induction bs generalizing i with
  | nil => simp [bufwrs]
  | cons b bs ih =>
    intro w hw
    rw [bufwrs, List.filterMap_cons] at hw
    rcases List.mem_cons.1 hw with rfl | hw
    · rfl
    · exact ih (i + 1) w hw

theorem arm (n : Nat) (colors : List Byte) : Statement (.arm n colors) := by
  refine ⟨by simp [encode, primitives, armExpansion, encodeWord], 1, fun w hw => ?_⟩
  rw [encode, primitives, armExpansion, List.filterMap_append] at hw
  rcases List.mem_append.1 hw with hw | hw
  · exact formatOf_bufwrs 0 colors w hw
  · simp only [List.filterMap_cons, encodeWord, List.filterMap_nil, List.mem_cons, List.not_mem_nil, or_false] at hw
    rcases hw with rfl | rfl <;> rfl

theorem tIdle : Statement .tIdle := ⟨by simp [encode, primitives, encodeWord], 2, by simp [encode, primitives, encodeWord, formatOf]⟩

theorem tEntry : Statement .tEntry := ⟨by simp [encode, primitives, encodeWord], 2, by simp [encode, primitives, encodeWord, formatOf]⟩

theorem tStartbit : Statement .tStartbit := ⟨by simp [encode, primitives, encodeWord], 2, by simp [encode, primitives, encodeWord, formatOf]⟩

theorem tShape : Statement .tShape := ⟨by simp [encode, primitives, encodeWord], 2, by simp [encode, primitives, encodeWord, formatOf]⟩

theorem tNextbit : Statement .tNextbit := ⟨by simp [encode, primitives, encodeWord], 2, by simp [encode, primitives, encodeWord, formatOf]⟩

theorem tGap : Statement .tGap := ⟨by simp [encode, primitives, encodeWord], 2, by simp [encode, primitives, encodeWord, formatOf]⟩

theorem sym0 : Statement .sym0 := ⟨by simp [encode, primitives, encodeWord], 3, by simp [encode, primitives, encodeWord, formatOf]⟩

theorem sym1 : Statement .sym1 := ⟨by simp [encode, primitives, encodeWord], 3, by simp [encode, primitives, encodeWord, formatOf]⟩

end Sys2Proof.Laws.Format
end

