-- ==== Sys2Proof/Laws/Tick.lean ====
section
/-!
SUPPORT. Sys2Proof/Laws/Tick.lean: what a state of the R37 table looks like, and what each arm that answers a
next state did.
-/

namespace Sys2Proof.Machine

variable {P : Params} {s t : State}

/-- The table of R37, read off `legal`. -/
theorem legal_iff :
    legal P s = true ↔
      (s.session = .idle ∧ s.bitPhase = .idle ∧ s.half = .high ∧ s.pulseTicks = 0 ∧ s.gapTicks = 0) ∨
      (s.session = .sending ∧ s.bitPhase ≠ .sending ∧ s.half = .high ∧ s.pulseTicks = 0 ∧ s.gapTicks = 0) ∨
      (s.session = .sending ∧ s.bitPhase = .sending ∧ s.pulseTicks < threshold s.currentBit s.half ∧
        s.gapTicks = 0) ∨
      (s.session = .resetGap ∧ s.bitPhase = .idle ∧ s.half = .high ∧ s.pulseTicks = 0 ∧
        s.gapTicks < P.resetTicks) := by
  unfold legal
  cases hs : s.session <;> cases hp : s.bitPhase <;> cases hh : s.half <;> simp

theorem tIdle_eq_next : tIdle P s = .next t ↔ legal P s = true ∧ s.session = .idle ∧ t = beginPass s := by
  simp [tIdle, runPass_eq_next, eq_comm (a := t)]

theorem tEntry_eq_next :
    tEntry P s = .next t ↔ legal P s = true ∧ (s.session = .sending ∧ s.bitPhase = .idle) ∧
      t = { beginPass s with
            bitIndex := 0, pulseTicks := 0, currentBit := bufBit P s 0, bitPhase := .startBit } := by
  simp [tEntry, runPass_eq_next, eq_comm (a := t), bufBit, readByte]

theorem tStartbit_eq_next :
    tStartbit P s = .next t ↔ legal P s = true ∧ (s.session = .sending ∧ s.bitPhase = .startBit) ∧
      ((s.bitIndex = s.activeBitCount ∧ t = { beginPass s with bitPhase := .nextBit }) ∨
       (s.bitIndex ≠ s.activeBitCount ∧ s.bitIndex < bufBits P ∧
        t = { beginPass s with currentBit := bufBitZero P s s.bitIndex, bitPhase := .sending })) := by
  rw [tStartbit, runPass_eq_next]
  by_cases h : s.bitIndex = s.activeBitCount <;>
    simp [h, fetching_eq_next, eq_comm (a := t), bufBitZero, readByte]

/-- The state a `T_SHAPE` pass has when it has driven the line. -/
def shapeDrive (s : State) : State :=
  { drive (halfLevel s.half) (beginPass s) with window := extendWindow s (halfLevel s.half) }

theorem tShape_eq_next :
    tShape P s = .next t ↔ legal P s = true ∧ (s.session = .sending ∧ s.bitPhase = .sending) ∧
      ((s.pulseTicks + 1 ≠ threshold s.currentBit s.half ∧
        t = { shapeDrive s with pulseTicks := s.pulseTicks + 1 }) ∨
       (s.pulseTicks + 1 = threshold s.currentBit s.half ∧ s.half = .high ∧
        t = { shapeDrive s with pulseTicks := 0, half := .low }) ∨
       (s.pulseTicks + 1 = threshold s.currentBit s.half ∧ s.half = .low ∧
        t = { shapeDrive s with
              pulseTicks := 0, half := .high, bitIndex := s.bitIndex + 1, bitPhase := .nextBit })) := by
  rw [tShape, runPass_eq_next]
  by_cases h : s.pulseTicks + 1 = threshold s.currentBit s.half
  · cases hh : s.half <;> rw [hh] at h <;> simp [h, hh, eq_comm (a := t), shapeDrive, extendWindow]
  · simp [h, eq_comm (a := t), shapeDrive, extendWindow]
    exact fun _ _ _ => Iff.rfl

theorem tNextbit_eq_next :
    tNextbit P s = .next t ↔ legal P s = true ∧ (s.session = .sending ∧ s.bitPhase = .nextBit) ∧
      ((s.bitIndex = s.activeBitCount ∧ t = { beginPass s with bitPhase := .idle, session := .resetGap }) ∨
       (s.bitIndex ≠ s.activeBitCount ∧ s.bitIndex < bufBits P ∧
        t = { beginPass s with currentBit := bufBit P s s.bitIndex, bitPhase := .sending })) := by
  rw [tNextbit, runPass_eq_next]
  by_cases h : s.bitIndex = s.activeBitCount <;>
    simp [h, fetching_eq_next, eq_comm (a := t), bufBit, readByte]

theorem tGap_eq_next :
    tGap P s = .next t ↔ legal P s = true ∧ s.session = .resetGap ∧
      ((s.gapTicks + 1 = P.resetTicks ∧
        t = { drive .low (beginPass s) with gapTicks := 0, session := .idle }) ∨
       (s.gapTicks + 1 ≠ P.resetTicks ∧
        t = { drive .low (beginPass s) with gapTicks := s.gapTicks + 1 })) := by
  rw [tGap, runPass_eq_next]
  by_cases h : s.gapTicks + 1 = P.resetTicks <;> simp [h, eq_comm (a := t)]

/-- What a line symbol that answers a next state did: ten `T_SHAPE` passes from a window's start. -/
theorem shapeWindow_eq_next {bit : FrameBit} :
    shapeWindow P bit s = .next t ↔ atWindowStart bit s ∧ shapePasses P 10 s = .next t := by
  unfold shapeWindow
  split <;> rename_i h
  · exact ⟨fun ht => ⟨h, ht⟩, fun ht => ht.2⟩
  · simp [h]

/-- `T_SHAPE` passes in a row, one at a time. -/
theorem shapePasses_succ_eq_next {n : Nat} :
    shapePasses P (n + 1) s = .next t ↔ ∃ u, tShape P s = .next u ∧ shapePasses P n u = .next t := by
  rw [shapePasses, andThen_eq_next]

/-- What every `T_SHAPE` pass keeps, and what it makes true, carries over to passes in a row. -/
theorem shapePasses_induction {I : State → Prop} (hI : ∀ s t, I s → tShape P s = .next t → I t) :
    ∀ (n : Nat) (s t : State), I s → shapePasses P n s = .next t → I t
  | 0, s, t, hs, h => by
    simp only [shapePasses, Host.Outcome.next.injEq] at h
    exact h ▸ hs
  | n + 1, s, t, hs, h => by
    obtain ⟨u, hu, h⟩ := shapePasses_succ_eq_next.1 h
    exact shapePasses_induction hI n u t (hI s u hs hu) h

end Sys2Proof.Machine
end

