-- ==== Sys2Proof/Laws/Step.lean ====
section
/-!
SUPPORT. Sys2Proof/Laws/Step.lean: what a step can do, said once, how runs compose, and how ticks are counted in a
schedule.
-/

namespace Sys2Proof.Machine

open Sys2Proof.Safety

/-- What a step that answers a next state did. -/
theorem step_eq_next {s t : State} :
    step s = .next t ↔
      s.violation = none ∧
        ∃ i, decode (fetchWord s) = .ok i ∧ (s.booted = true ∨ i = .reset) ∧ exec i (fetchRest s) = .next t := by
  unfold step
  split
  · simp_all
  · split <;> rename_i h
    · simp_all
    · rw [h]
      split <;> rename_i hm <;> simp_all [mayRun]

/-- What each turn's word decodes to, and which turn it was. -/
theorem fetchWord_cases (s : State) :
    (TickTurn s ∧ fetchWord s = .tick (selector s.session s.bitPhase)) ∨
    (ForegroundTurn s ∧ fetchWord s = .host (s.program.headD idlePort)) ∨
    (s.schedule.head? = some .reset ∧ fetchWord s = .reset 1#1) ∨
    ∃ levels, s.schedule.head? = some (.symbol levels) ∧ fetchWord s = .symbol levels := by
  unfold fetchWord
  split <;> simp_all [TickTurn, ForegroundTurn]

/-- A host-port word decodes to a host-port operation. -/
theorem decodeHost_cases (w : HostWord) :
    decodeHost w = .poll ∨ (∃ i v, decodeHost w = .bufwr i v) ∨ (∃ n, decodeHost w = .setlen n) ∨
      decodeHost w = .start := by
  unfold decodeHost
  split
  · simp
  · split
    · simp
    · split <;> simp

@[simp] theorem run_zero (s : State) : run 0 s = .next s := rfl

theorem run_succ (k : Nat) (s : State) : run (k + 1) s = andThen (step s) (run k) := by
  have h := Host.Core.run.eq_2 core s k
  refine h.trans ?_
  show _ = andThen (core.step s) (run k)
  cases core.step s <;> rfl

theorem run_add (j k : Nat) (s : State) : run (j + k) s = andThen (run j s) (run k) := by
  induction j generalizing s with
  | zero => simp
  | succ j ih =>
    rw [Nat.succ_add, run_succ, run_succ]
    cases step s with
    | next u => simpa [andThen] using ih u
    | fault r => rfl
    | refused r => rfl

/-- Runs that answer compose. -/
theorem run_add_of_next {j k : Nat} {s t : State} (h : run j s = .next t) : run (j + k) s = run k t := by
  rw [run_add, h, andThen_next]

/-- A `POLL` in the foreground context's turn answers, and spends the turn and the word. -/
theorem step_of_poll {s : State} {ts : List Turn} (hr : Running s) (hs : s.schedule = .foreground :: ts)
    (hw : (s.program.headD idlePort).hOp = 0b00#2) :
    step s = .next { s with hRdata := s.session.code, program := s.program.tail, schedule := ts } := by
  refine step_eq_next.2 ⟨hr.1, .poll, ?_, .inl hr.2, ?_⟩
  · simp only [fetchWord, hs, decode, decodeHost, if_pos hw]
  · simp only [fetchRest, hs]
    rfl

/-! ## Ticks in a schedule -/

@[simp] theorem stepsToTick_zero (ts : List Turn) : stepsToTick 0 ts = 0 := by cases ts <;> rfl

@[simp] theorem stepsToTick_nil (n : Nat) : stepsToTick n [] = n := by cases n <;> rfl

@[simp] theorem ticksBy_zero (ts : List Turn) : ticksBy 0 ts = 0 := by cases ts <;> rfl

@[simp] theorem ticksBy_nil (j : Nat) : ticksBy j [] = j := by cases j <;> rfl

@[simp] theorem pollsOnly_zero (ws : List HostWord) (ts : List Turn) : pollsOnly 0 ws ts = true := by
  cases ts <;> rfl

@[simp] theorem pollsOnly_nil (n : Nat) (ws : List HostWord) : pollsOnly n ws [] = true := by cases n <;> rfl

/-- The turns up to the `n`-th tick hold `n` ticks. -/
theorem ticksBy_stepsToTick (n : Nat) (ts : List Turn) : ticksBy (stepsToTick n ts) ts = n := by
  induction ts generalizing n with
  | nil => simp
  | cons t ts ih => cases n <;> cases t <;> simp [stepsToTick, ticksBy, ih]

theorem stepsToTick_mono {m n : Nat} (h : m ≤ n) (ts : List Turn) : stepsToTick m ts ≤ stepsToTick n ts := by
  induction ts generalizing m n with
  | nil => simpa using h
  | cons t ts ih =>
    cases m with
    | zero => simp
    | succ m =>
      obtain ⟨n, rfl⟩ : ∃ k, n = k + 1 := ⟨n - 1, by omega⟩
      cases t <;> simp only [stepsToTick, Nat.add_le_add_iff_right] <;> exact ih (by omega)

theorem pollsOnly_mono {m n : Nat} (h : m ≤ n) {ws : List HostWord} {ts : List Turn}
    (hq : pollsOnly n ws ts = true) : pollsOnly m ws ts = true := by
  induction ts generalizing m n ws with
  | nil => simp
  | cons t ts ih =>
    cases m with
    | zero => simp
    | succ m =>
      obtain ⟨n, rfl⟩ : ∃ k, n = k + 1 := ⟨n - 1, by omega⟩
      cases t <;> simp only [pollsOnly, Bool.and_eq_true, reduceCtorEq] at hq ⊢
      · exact ⟨hq.1, ih h hq.2⟩
      · exact ih (by omega) hq

/-- Ticks in a row are quiet, whatever comes after them. -/
theorem pollsOnly_ticks (n : Nat) (ws : List HostWord) (ts : List Turn) :
    pollsOnly n ws (List.replicate n .tick ++ ts) = true := by
  induction n with
  | zero => simp
  | succ n ih => simpa [List.replicate_succ, pollsOnly] using ih

/-- What the premises of a session say of the state the `START` leads to. -/
theorem sessionStart_eq {q s : State} (h : SessionStart q s) : s = { q with session := .sending } :=
  (execStart_eq_next.1 h.start).2

end Sys2Proof.Machine
end

