-- ==== Sys2Proof/Tests/Slice0.lean ====
section
/-!
SUPPORT. Sys2Proof/Tests/Slice0.lean: the model's own tests. Expected results are those of spec/95_test_vectors.md
(named by their number there) and the encodings of spec/30_encoding.md; the last section shows, for every
statement with hypotheses, operands and a state that meet them.
-/

namespace Sys2Proof.Tests

open Sys2Proof.Machine Sys2Proof.Safety

/-! ## Helpers -/

/-- The parameters of the vectors: `MAX_LEDS = 2`, `BUF_CAP = 6`, `RESET_TICKS = 40`, `W_IDX = 6`; an unwritten
byte reads EE. -/
def vectors : Params := { spareLeds := 1, spareBytes := 0, spareGap := 0, spareWidth := 0, bufInit := fun _ => 0xEE#8 }

/-- A state written as the vectors write one, with `active_bit_count` last. -/
def tuple (session : Session) (phase : BitPhase) (bit : FrameBit) (half : Half) (pulse index gap : Nat)
    (line : Level) (count : Nat) : State :=
  { State.reset with
    session := session, bitPhase := phase, currentBit := bit, half := half, pulseTicks := pulse,
    bitIndex := index, gapTicks := gap, line := line, activeBitCount := count }

/-- `s` with the bytes listed in the buffer. -/
def withBytes (cells : List Host.Cell) (s : State) : State := { s with buf := cells }

/-- The next state, where there is one. -/
def answer : Out → Option State
  | .next s => some s
  | _ => none

/-- The tuple, the length and the drive record of the next state. -/
def seen (o : Out) : Option (StateTuple × Nat × Option Level) :=
  (answer o).map fun t => (stateTuple t, t.activeBitCount, t.driven)

/-- The violation raised, where one is. -/
def raised : Out → Option Violation
  | .refused (.violation v _) => some v
  | _ => none

/-- What `seen` shows of a state. -/
def shows (s : State) (driven : Option Level) : Option (StateTuple × Nat × Option Level) :=
  some (stateTuple s, s.activeBitCount, driven)

theorem test_vector_parameters :
    vectors.maxLeds = 2 ∧ vectors.bufCap = 6 ∧ vectors.resetTicks = 40 ∧ vectors.wIdx = 6 := by decide

/-! ## Well-formedness: an ill-formed term for each check -/

theorem test_wellFormed_refuses_index_past_buffer : wellFormed vectors (.bufwr 6 0x00#8) = false := by decide
theorem test_wellFormed_refuses_length_too_wide : wellFormed vectors (.setlen 64) = false := by decide
theorem test_wellFormed_refuses_too_many_leds :
    wellFormed vectors (.arm 3 [0, 0, 0, 0, 0, 0, 0, 0, 0]) = false := by decide
theorem test_wellFormed_refuses_missing_byte : wellFormed vectors (.arm 1 [0x01#8, 0x02#8]) = false := by decide
theorem test_wellFormed_accepts :
    wellFormed vectors (.bufwr 5 0xFF#8) = true ∧ wellFormed vectors (.setlen 63) = true ∧
      wellFormed vectors (.arm 1 [0x01#8, 0x02#8, 0x03#8]) = true ∧ wellFormed vectors (.arm 0 []) = true := by
  decide

/-! ## Decoding: words written out from R60, R62, R65, R66, one or more per constructor -/

theorem test_decode_reset : decode (.reset 0b1#1) = .ok .reset := by decide
theorem test_decode_poll :
    decode (.host { hOp := 0b00#2, hAddr := 3, hData := 0xA5#8, hLen := 9 }) = .ok .poll := by decide
theorem test_decode_bufwr :
    decode (.host { hOp := 0b01#2, hAddr := 2, hData := 0x80#8, hLen := 9 }) = .ok (.bufwr 2 0x80#8) := by decide
theorem test_decode_setlen :
    decode (.host { hOp := 0b10#2, hAddr := 3, hData := 0xA5#8, hLen := 24 }) = .ok (.setlen 24) := by decide
theorem test_decode_start :
    decode (.host { hOp := 0b11#2, hAddr := 3, hData := 0xA5#8, hLen := 9 }) = .ok .start := by decide
theorem test_decode_tIdle :
    decode (.tick 0b0000#4) = .ok .tIdle ∧ decode (.tick 0b0011#4) = .ok .tIdle := by decide
theorem test_decode_tEntry : decode (.tick 0b0100#4) = .ok .tEntry := by decide
theorem test_decode_tStartbit : decode (.tick 0b0101#4) = .ok .tStartbit := by decide
theorem test_decode_tShape : decode (.tick 0b0110#4) = .ok .tShape := by decide
theorem test_decode_tNextbit : decode (.tick 0b0111#4) = .ok .tNextbit := by decide
theorem test_decode_tGap :
    decode (.tick 0b1000#4) = .ok .tGap ∧ decode (.tick 0b1011#4) = .ok .tGap := by decide
theorem test_decode_sym0 : decode (.symbol 0b1110000000#10) = .ok .sym0 := by decide
theorem test_decode_sym1 : decode (.symbol 0b1111111000#10) = .ok .sym1 := by decide

/-- R71: the six-byte frame of P3 is six `BUFWR`, `SETLEN 48`, `START`. -/
theorem test_decode_arm :
    (encode (.arm 2 [0xA5#8, 0x00#8, 0xFF#8, 0x0F#8, 0x80#8, 0x01#8])).map decode =
      [.ok (.bufwr 0 0xA5#8), .ok (.bufwr 1 0x00#8), .ok (.bufwr 2 0xFF#8), .ok (.bufwr 3 0x0F#8),
       .ok (.bufwr 4 0x80#8), .ok (.bufwr 5 0x01#8), .ok (.setlen 48), .ok .start] := by decide

theorem test_decode_rejects_reset_low : decode (.reset 0b0#1) = .error .resetNotAsserted := by decide
theorem test_decode_rejects_reserved_selectors :
    ∀ p : BitVec 2, decode (.tick (0b11#2 ++ p)) = .error (.reservedSelector (0b11#2 ++ p)) := by decide
theorem test_decode_rejects_other_levels :
    decode (.symbol 0b1111000000#10) = .error (.notASymbol 0b1111000000#10) := by decide

/-- R64, R65: selector 1001 is ResetGap with StartBit. -/
theorem test_selector : selector .resetGap .startBit = 0b1001#4 := by decide

/-- The table's numbering at each width. -/
theorem test_tableWord_widths :
    decodeTableWord 1 1 = some .reset ∧ decodeTableWord 2 3 = some .start ∧ decodeTableWord 8 3 = some .start ∧
      decodeTableWord 8 6 = some .tShape ∧ decodeTableWord 4 0 = some .tIdle ∧
      decodeTableWord 16 0b1110000000 = some .sym0 ∧ decodeTableWord 10 0b1111111000 = some .sym1 ∧
      decodeTableWord 8 13 = none := by decide

/-! ## One step: vectors of spec/95 section 2 -/

/-- Z1. -/
theorem test_reset :
    seen (exec .reset { tuple .sending .sending .one .low 2 7 5 .high 24 with booted := false }) =
      shows (tuple .idle .idle .zero .high 0 0 0 .low 0) none := by decide

/-- H17: `POLL` in the last tick of the gap returns 10. -/
theorem test_poll :
    (answer (exec .poll (tuple .resetGap .idle .zero .high 0 24 39 .low 24))).map (·.hRdata) = some 0b10#2 := by
  decide

/-- H2: the second write leaves the first byte and the unwritten ones. -/
theorem test_bufwr :
    (answer (bufwr vectors 5 0xFF#8 (withBytes [(0, 0x01#8)] State.reset))).map
        (fun t => (List.range 6).map (readByte vectors t)) =
      some [0x01#8, 0xEE#8, 0xEE#8, 0xEE#8, 0xEE#8, 0xFF#8] := by decide

/-- H5: the index is tested before the session. -/
theorem test_bufwr_index_first :
    raised (bufwr vectors 6 0x00#8 (tuple .resetGap .idle .zero .high 0 0 0 .low 0)) = some (.addrRange 6) := by
  decide

/-- H7: 48 is the largest legal length. -/
theorem test_setlen : (answer (setlen vectors 48 State.reset)).map (·.activeBitCount) = some 48 := by decide

/-- H8. -/
theorem test_setlen_too_long : raised (setlen vectors 49 State.reset) = some (.lenRange 49) := by decide

/-- H12: `bit_index` is still 24. -/
theorem test_start :
    seen (exec .start (tuple .idle .idle .one .high 0 24 0 .low 24)) =
      shows (tuple .sending .idle .one .high 0 24 0 .low 24) none := by decide

/-- H14. -/
theorem test_start_busy :
    raised (exec .start (tuple .resetGap .idle .zero .high 0 0 0 .low 0)) = some (.rearmBusy .resetGap) := by
  decide

/-- H18. -/
theorem test_arm :
    (answer (arm vectors 1 [0x01#8, 0x02#8, 0x03#8] State.reset)).map
        (fun t => ((List.range 4).map (readByte vectors t), t.activeBitCount, t.session)) =
      some ([0x01#8, 0x02#8, 0x03#8, 0xEE#8], 24, .sending) := by decide

/-- H21: two bytes where three are needed. -/
theorem test_arm_missing_byte :
    raised (arm vectors 1 [0x01#8, 0x02#8] State.reset) = some (.armArgs 1 2) := by decide

/-- T2. -/
theorem test_tIdle :
    seen (tIdle vectors (tuple .idle .idle .one .high 0 24 0 .low 24)) =
      shows (tuple .idle .idle .one .high 0 24 0 .low 24) none := by decide

/-- T4: `bit_index` back to 0, bit 0 of FE loaded. -/
theorem test_tEntry :
    seen (tEntry vectors (withBytes [(0, 0xFE#8)] (tuple .sending .idle .one .high 0 24 0 .low 24))) =
      shows (tuple .sending .startBit .zero .high 0 0 0 .low 24) none := by decide

/-- T7: the smallest frame that is not empty. -/
theorem test_tStartbit :
    seen (tStartbit vectors (withBytes [(0, 0x01#8)] (tuple .sending .startBit .one .high 0 0 0 .low 1))) =
      shows (tuple .sending .sending .one .high 0 0 0 .low 1) none := by decide

/-- T6: the empty frame. -/
theorem test_tStartbit_empty :
    seen (tStartbit vectors (tuple .sending .startBit .zero .high 0 0 0 .low 0)) =
      shows (tuple .sending .nextBit .zero .high 0 0 0 .low 0) none := by decide

/-- T9: the third HIGH pass flips the half and leaves the line HIGH. -/
theorem test_tShape_flips :
    seen (tShape vectors (tuple .sending .sending .zero .high 2 5 0 .high 24)) =
      shows (tuple .sending .sending .zero .low 0 5 0 .high 24) (some .high) := by decide

/-- T14: the third LOW pass of a One ends the window. -/
theorem test_tShape_ends :
    seen (tShape vectors (tuple .sending .sending .one .low 2 23 0 .low 24)) =
      shows (tuple .sending .nextBit .one .high 0 24 0 .low 24) (some .low) := by decide

/-- T17: byte 2, offset 7. -/
theorem test_tNextbit :
    seen (tNextbit vectors (withBytes [(2, 0x80#8)] (tuple .sending .nextBit .zero .high 0 23 0 .low 24))) =
      shows (tuple .sending .sending .one .high 0 23 0 .low 24) none := by decide

/-- T20: equality holds, so byte 6 is not fetched. -/
theorem test_tNextbit_complete :
    seen (tNextbit vectors (tuple .sending .nextBit .one .high 0 48 0 .low 48)) =
      shows (tuple .resetGap .idle .one .high 0 48 0 .low 48) none := by decide

/-- T23. -/
theorem test_tGap_last :
    seen (tGap vectors (tuple .resetGap .idle .zero .high 0 24 39 .low 24)) =
      shows (tuple .idle .idle .zero .high 0 24 0 .low 24) (some .low) := by decide

/-- T24, at `RESET_TICKS = 50`. -/
theorem test_tGap_longer :
    seen (tGap { vectors with spareGap := 10 } (tuple .resetGap .idle .zero .high 0 24 39 .low 24)) =
      shows (tuple .resetGap .idle .zero .high 0 24 40 .low 24) (some .low) := by decide

/-- Section 2.3: the drive string of a Zero bit's window. -/
theorem test_sym0 :
    (answer (shapeWindow vectors .zero (tuple .sending .sending .zero .high 0 0 0 .low 1))).map (·.window) =
      some [.high, .high, .high, .low, .low, .low, .low, .low, .low, .low] := by decide

/-- Section 2.3: the drive string of a One bit's window. -/
theorem test_sym1 :
    (answer (shapeWindow vectors .one (tuple .sending .sending .one .high 0 0 0 .low 1))).map (·.window) =
      some [.high, .high, .high, .high, .high, .high, .high, .low, .low, .low] := by decide

/-- Section 2.4: the bits of A5 from bit 0 on. -/
theorem test_bit_order :
    (List.range 8).map (bitOf 0xA5#8) = [.one, .zero, .one, .zero, .zero, .one, .zero, .one] := by decide

/-! ## Witnesses: the hypotheses of each statement are met -/

/-- The state after a `START` with a frame of `n` bits. -/
def started (n : Nat) : State := tuple .sending .idle .zero .high 0 0 0 .low n

/-- A reset gap in progress. -/
def inGap (gap : Nat) : State := tuple .resetGap .idle .zero .high 0 0 gap .low 0

/-- The first pass of a window is due. -/
def windowStart (bit : FrameBit) : State := tuple .sending .sending bit .high 0 0 0 .low 1

theorem legal_of_table (s : State) (h : s.session ≠ .resetGap) (hl : legal vectors s = true) : Legal s := by
  simp only [Legal, legal_iff] at hl ⊢
  tauto

theorem witness_WellFormedWordsFitTheHostPort :
    WellFormed (.bufwr (Config.params.bufCap - 1) 0xFF#8) ∧ WellFormed (.setlen (2 ^ Config.params.wIdx - 1)) ∧
      WellFormed (.arm 1 [0x01#8, 0x02#8, 0x03#8]) ∧
      .host { hOp := 0b10#2, hAddr := 0, hData := 0#8, hLen := 24 } ∈ encode (.arm 1 [0x01#8, 0x02#8, 0x03#8]) := by
  have hb := bufCap_pos Config.params
  have hw : 0 < 2 ^ Config.params.wIdx := by positivity
  refine ⟨by simp [WellFormed, wellFormed]; omega, by simp [WellFormed, wellFormed], ?_, by decide⟩
  simp [WellFormed, wellFormed, Params.maxLeds, Config.bytesPerLed]

theorem witness_DecodeOfEncodeIsTheInstruction :
    encodeWord (.bufwr 5 0xFF#8) = some (.host { hOp := 0b01#2, hAddr := 5, hData := 0xFF#8, hLen := 0 }) ∧
      encodeWord (.arm 0 []) = none := by decide

theorem witness_StepRunsTheDecodedInstruction :
    (NoViolation State.reset ∧ decode (fetchWord State.reset) = .ok .tIdle ∧ State.reset.booted = true) ∧
      (NoViolation { State.reset with booted := false, schedule := [.reset] } ∧
        decode (fetchWord { State.reset with booted := false, schedule := [.reset] }) = .ok .reset) := by decide

theorem witness_TickRunsTheArmTheStateSelects :
    Running (started 1) ∧ TickTurn (started 1) ∧ Running State.reset ∧
      TickTurn { State.reset with schedule := [.tick, .foreground] } := by decide

theorem witness_PlacedTableWordRunsNext :
    decodeTableWord 8 6 = some .tShape ∧ decodeTableWord 8 1 = some (.bufwr 0 0#8) ∧
      decodeTableWord 10 0b1110000000 = some .sym0 ∧ decodeTableWord 1 1 = some .reset := by decide

theorem witness_IdleHostPortPolls :
    Running { State.reset with schedule := [.foreground] } ∧
      ForegroundTurn { State.reset with schedule := [.foreground] } ∧ State.reset.program = [] := by decide

theorem witness_UndecodableOrEarlyWordsStop :
    decode (fetchWord { State.reset with schedule := [.symbol 0b1000000000#10] }) =
        .error (.notASymbol 0b1000000000#10) ∧
      decode (fetchWord { State.reset with booted := false }) = .ok .tIdle ∧ Instr.tIdle ≠ .reset := by decide

theorem witness_ResetWritesEveryItem : { started 24 with booted := false }.booted = false := by decide

theorem witness_SecondResetIsRefused : (started 24).booted = true := by decide

theorem witness_BufwrStoresExactlyOneByte :
    (Config.params.bufCap - 1 < Config.params.bufCap ∧ State.reset.session = .idle) ∧
      Config.params.bufCap ≤ Config.params.bufCap ∧
      (Config.params.bufCap - 1 < Config.params.bufCap ∧ (started 1).session ≠ .idle) := by
  have hb := bufCap_pos Config.params
  refine ⟨⟨by omega, rfl⟩, le_rfl, by omega, by decide⟩

theorem witness_SetlenWritesTheLength :
    (8 * Config.params.bufCap ≤ 8 * Config.params.bufCap ∧ State.reset.session = .idle) ∧
      8 * Config.params.bufCap < 8 * Config.params.bufCap + 1 ∧ (inGap 0).session ≠ .idle :=
  ⟨⟨le_rfl, rfl⟩, by omega, by decide⟩

theorem witness_StartArmsTheEngine : State.reset.session = .idle ∧ (inGap 39).session ≠ .idle := by decide

theorem witness_ArmCopiesSetsAndStarts :
    (Config.params.maxLeds ≤ Config.params.maxLeds ∧
        (List.replicate (3 * Config.params.maxLeds) 0xA5#8).length = 3 * Config.params.maxLeds) ∧
      (0 ≤ Config.params.maxLeds ∧ ([] : List Byte).length = 3 * 0) ∧ State.reset.session = .idle :=
  ⟨⟨le_rfl, by simp⟩, ⟨Nat.zero_le _, rfl⟩, rfl⟩

theorem witness_ArmBrokenPreconditionsAreRefused :
    Config.params.maxLeds < Config.params.maxLeds + 1 ∧ [0x01#8, 0x02#8].length ≠ 3 * 1 ∧
      (1 ≤ Config.params.maxLeds ∧ [0x01#8, 0x02#8, 0x03#8].length = 3 * 1 ∧ (inGap 0).session ≠ .idle) :=
  ⟨Nat.lt_succ_self _, by decide, by simp [Params.maxLeds], rfl, by decide⟩

/-- The words of `ARM(1, [1, 2, 3])`. -/
def armWords : List HostWord :=
  [{ hOp := 0b01#2, hAddr := 0, hData := 0x01#8, hLen := 0 }, { hOp := 0b01#2, hAddr := 1, hData := 0x02#8, hLen := 0 },
   { hOp := 0b01#2, hAddr := 2, hData := 0x03#8, hLen := 0 }, { hOp := 0b10#2, hAddr := 0, hData := 0x00#8, hLen := 24 },
   { hOp := 0b11#2, hAddr := 0, hData := 0x00#8, hLen := 0 }]

/-- The foreground context about to present those words, with ticks in between as in P3. -/
def arming : State :=
  { State.reset with
    program := armWords ++ []
    schedule := [0, 1, 2, 0, 1].flatMap (fun g => List.replicate g Turn.tick ++ [Turn.foreground]) ++ [.tick] }

theorem witness_ArmIsItsWordsUnderAnyTicks :
    WellFormed (.arm 1 [0x01#8, 0x02#8, 0x03#8]) ∧ Running arming ∧ Legal arming ∧ arming.session = .idle ∧
      encode (.arm 1 [0x01#8, 0x02#8, 0x03#8]) = armWords.map .host ∧ arming.program = armWords ++ [] ∧
      [0, 1, 2, 0, 1].length = armWords.length ∧
      arming.schedule =
        [0, 1, 2, 0, 1].flatMap (fun g => List.replicate g Turn.tick ++ [Turn.foreground]) ++ [.tick] :=
  ⟨witness_WellFormedWordsFitTheHostPort.2.2.1, by decide, legal_of_table _ (by decide) (by decide), rfl, by decide,
    rfl, rfl, rfl⟩

/-- `ARM(1, [FF, 00, 80])` of S2 answers a next state. -/
theorem arm_answers : ∃ t, exec (.arm 1 [0xFF#8, 0x00#8, 0x80#8]) State.reset = .next t := by
  have hm : 1 ≤ Config.params.maxLeds := by simp [Params.maxLeds]
  have hb := armBytes_le_bufCap hm
  have hn := armBits_le_bufBits hm
  obtain ⟨u, hu, -⟩ := bufwrAll_spec Config.params [0xFF#8, 0x00#8, 0x80#8] 0 State.reset
    (by simpa [armBytes, Config.bytesPerLed] using hb) rfl
  have hs : u.session = .idle := by rw [bufwrAll_frame hu]; rfl
  show ∃ t, arm Config.params 1 [0xFF#8, 0x00#8, 0x80#8] State.reset = .next t
  rw [arm, if_neg (by simp only [armBytes, Config.bytesPerLed, List.length_cons, List.length_nil]; omega), hu,
    andThen_next, setlen_eq_next.2 ⟨hn, hs, rfl⟩, andThen_next]
  exact ⟨_, execStart_eq_next.2 ⟨hs, rfl⟩⟩

theorem witness_ArmedFrameIsTheBytesLowBitFirst :
    (∃ t, exec (.arm 1 [0xFF#8, 0x00#8, 0x80#8]) State.reset = .next t) ∧ 23 < 24 * 1 :=
  ⟨arm_answers, by decide⟩

theorem witness_HostOperationsLeaveTheEngineAlone :
    (∃ t, exec .poll State.reset = .next t) ∧ (∃ t, exec (.bufwr 0 0x01#8) State.reset = .next t) ∧
      (∃ t, exec (.setlen 0) State.reset = .next t) ∧ (∃ t, exec .start State.reset = .next t) ∧
      ∃ t, exec (.arm 1 [0xFF#8, 0x00#8, 0x80#8]) State.reset = .next t :=
  ⟨⟨_, rfl⟩,
    ⟨_, bufwr_eq_next (P := Config.params) (i := 0) (v := 0x01#8) (s := State.reset) |>.2 ⟨bufCap_pos _, rfl, rfl⟩⟩,
    ⟨_, setlen_eq_next (P := Config.params) (n := 0) (s := State.reset) |>.2 ⟨Nat.zero_le _, rfl, rfl⟩⟩,
    ⟨_, execStart_eq_next (s := State.reset) |>.2 ⟨rfl, rfl⟩⟩, arm_answers⟩

theorem witness_IdleTicksAreInert :
    Legal State.reset ∧ State.reset.session = .idle ∧ Running State.reset ∧ State.reset.schedule = [] ∧ 0 < 1 :=
  ⟨legal_of_table _ (by decide) (by decide), rfl, by decide, rfl, by decide⟩

theorem witness_EntryTickInitialises :
    Legal (started 1) ∧ (started 1).session = .sending ∧ (started 1).bitPhase = .idle :=
  ⟨legal_of_table _ (by decide) (by decide), rfl, rfl⟩

/-- The `StartBit` or `NextBit` tick is due, at bit `k` of `n`. -/
def atBit (phase : BitPhase) (k n : Nat) : State := tuple .sending phase .zero .high 0 k 0 .low n

theorem legal_atBit {phase : BitPhase} (h : phase ≠ .sending) (k n : Nat) : Legal (atBit phase k n) := by
  simp [Legal, legal_iff, atBit, tuple, h]

/-- Each branch: the empty frame, the last bit of the buffer, the first bit beyond it. -/
theorem witness_StartbitTickLoadsOrDiverts :
    (∀ k n, Legal (atBit .startBit k n) ∧ (atBit .startBit k n).session = .sending ∧
      (atBit .startBit k n).bitPhase = .startBit) ∧
    (atBit .startBit 0 0).bitIndex = (atBit .startBit 0 0).activeBitCount ∧
    8 * Config.params.bufCap - 1 ≠ 8 * Config.params.bufCap ∧
    8 * Config.params.bufCap - 1 < 8 * Config.params.bufCap ∧
    8 * Config.params.bufCap ≠ 0 ∧ 8 * Config.params.bufCap ≤ 8 * Config.params.bufCap := by
  have hb := bufCap_pos Config.params
  exact ⟨fun k n => ⟨legal_atBit (by decide) k n, rfl, rfl⟩, rfl, by omega, by omega, by omega, le_rfl⟩

/-- Each branch: the full frame of the whole buffer, its last bit, the first bit beyond it. -/
theorem witness_NextbitTickTestsThenFetches :
    (∀ k n, Legal (atBit .nextBit k n) ∧ (atBit .nextBit k n).session = .sending ∧
      (atBit .nextBit k n).bitPhase = .nextBit) ∧
    (atBit .nextBit 24 24).bitIndex = (atBit .nextBit 24 24).activeBitCount ∧
    8 * Config.params.bufCap - 1 ≠ 8 * Config.params.bufCap ∧
    8 * Config.params.bufCap - 1 < 8 * Config.params.bufCap ∧
    8 * Config.params.bufCap ≠ 0 ∧ 8 * Config.params.bufCap ≤ 8 * Config.params.bufCap := by
  have hb := bufCap_pos Config.params
  exact ⟨fun k n => ⟨legal_atBit (by decide) k n, rfl, rfl⟩, rfl, by omega, by omega, by omega, le_rfl⟩

/-- The states of T8, T9 and T11: short of the threshold, and at it in each half. -/
theorem witness_ShapeTickDrivesAndCounts :
    Legal (tuple .sending .sending .zero .high 0 5 0 .low 24) ∧ 0 + 1 ≠ threshold .zero .high ∧
      Legal (tuple .sending .sending .zero .high 2 5 0 .high 24) ∧ 2 + 1 = threshold .zero .high ∧
      Legal (tuple .sending .sending .zero .low 6 5 0 .low 24) ∧ 6 + 1 = threshold .zero .low :=
  ⟨legal_of_table _ (by decide) (by decide), by decide, legal_of_table _ (by decide) (by decide), by decide,
    legal_of_table _ (by decide) (by decide), by decide⟩

theorem legal_inGap {gap : Nat} (h : gap < Config.params.resetTicks) : Legal (inGap gap) := by
  simp [Legal, legal_iff, inGap, tuple, h]

/-- The first and the last tick of the gap. -/
theorem witness_GapTickDrivesLowAndCounts :
    (Legal (inGap 0) ∧ (inGap 0).session = .resetGap ∧ 0 + 1 ≠ Config.params.resetTicks) ∧
      Legal (inGap (Config.params.resetTicks - 1)) ∧
      Config.params.resetTicks - 1 + 1 = Config.params.resetTicks := by
  have hr : 40 ≤ Config.params.resetTicks := by simp [Params.resetTicks, Config.resetMinTicks]
  exact ⟨⟨legal_inGap (by omega), rfl, by omega⟩, legal_inGap (by omega), by omega⟩

/-- A next state of a pass that does not drive, and of one that does. -/
theorem witness_EngineOperationsLeaveTheFrameAlone :
    (∃ t, exec .tEntry (started 1) = .next t) ∧ ∃ t, exec .tGap (inGap 0) = .next t := by
  have hr : 40 ≤ Config.params.resetTicks := by simp [Params.resetTicks, Config.resetMinTicks]
  have he := legal_of_table (started 1) (by decide) (by decide)
  have hg : Legal (inGap 0) := legal_inGap (by omega)
  have hn : (inGap 0).gapTicks + 1 ≠ Config.params.resetTicks := by show 0 + 1 ≠ _; omega
  exact ⟨⟨_, tEntry_eq_next (s := started 1) |>.2 ⟨he, ⟨rfl, rfl⟩, rfl⟩⟩,
    ⟨_, tGap_eq_next (s := inGap 0) |>.2 ⟨hg, rfl, .inr ⟨hn, rfl⟩⟩⟩⟩

theorem witness_OnlyShapeAndGapDriveTheLine :
    (∃ t, exec .poll State.reset = .next t) ∧ (∃ t, exec .tEntry (started 1) = .next t) ∧
      ∃ t, exec .tGap (inGap 0) = .next t :=
  ⟨⟨_, rfl⟩, witness_EngineOperationsLeaveTheFrameAlone⟩

/-- Idle with a phase of Sending is in no row of R37. -/
theorem witness_TickOutsideTheTableIsRefused : ¬ Legal (tuple .idle .sending .zero .high 0 0 0 .low 0) := by
  simp [Legal, legal_iff, tuple]

theorem witness_UnselectedArmIsRefused :
    Legal State.reset ∧ decode (.tick (selector State.reset.session State.reset.bitPhase)) ≠ .ok .tGap :=
  ⟨legal_of_table _ (by decide) (by decide), by decide⟩

theorem witness_SymbolDrivesItsTenLevels :
    ∀ bit, Legal (windowStart bit) ∧ (windowStart bit).session = .sending ∧ (windowStart bit).bitPhase = .sending ∧
      (windowStart bit).half = .high ∧ (windowStart bit).pulseTicks = 0 ∧ (windowStart bit).currentBit = bit := by
  intro bit
  cases bit <;> exact ⟨legal_of_table _ (by decide) (by decide), rfl, rfl, rfl, rfl, rfl⟩

theorem witness_SymbolIsTenTicks :
    ∀ bit, Running (windowStart bit) ∧ Legal (windowStart bit) ∧ (windowStart bit).schedule = [] ∧
      atWindowStart bit (windowStart bit) := by
  intro bit
  have h := witness_SymbolDrivesItsTenLevels bit
  exact ⟨⟨rfl, rfl⟩, h.1, rfl, h.2⟩

theorem witness_OtherSymbolIsRefused :
    ¬ atWindowStart .zero (windowStart .one) ∧ ¬ atWindowStart .one (windowStart .zero) := by decide

theorem witness_PhasesMoveOnlyByTheTable :
    Legal (started 1) ∧ (∃ t, exec .tEntry (started 1) = .next t) ∧ Legal State.reset ∧
      ∃ t, exec .start State.reset = .next t :=
  ⟨legal_of_table _ (by decide) (by decide), witness_EngineOperationsLeaveTheFrameAlone.1,
    legal_of_table _ (by decide) (by decide), ⟨_, execStart_eq_next (s := State.reset) |>.2 ⟨rfl, rfl⟩⟩⟩

/-- The tick of `T_ENTRY`, taken by `step`. -/
theorem step_started : ∃ t, step (started 1) = .next t := by
  obtain ⟨t, ht⟩ := witness_EngineOperationsLeaveTheFrameAlone.1
  exact ⟨t, step_eq_next.2 ⟨rfl, .tEntry, rfl, .inl rfl, ht⟩⟩

theorem witness_SessionMovesInThreeWaysOnly : (started 1).booted = true ∧ ∃ t, step (started 1) = .next t :=
  ⟨rfl, step_started⟩

/-- A tick while Idle, and a word of the foreground context while busy. -/
theorem witness_EachPhaseHasOneWriter :
    ((∃ t, step State.reset = .next t) ∧ TickTurn State.reset ∧ State.reset.session = .idle) ∧
      (∃ t, step { started 1 with schedule := [.foreground] } = .next t) ∧
      ForegroundTurn { started 1 with schedule := [.foreground] } ∧ (started 1).session ≠ .idle :=
  ⟨⟨⟨_, step_eq_next.2 ⟨rfl, .tIdle, rfl, .inl rfl,
      tIdle_eq_next (s := State.reset) |>.2 ⟨legal_of_table State.reset (by decide) (by decide), rfl, rfl⟩⟩⟩, rfl, rfl⟩,
    ⟨_, rfl⟩, rfl, by decide⟩

theorem witness_ViolationChangesOnlyTheMark :
    ∃ v m, exec .start (started 1) = .refused (.violation v m) := ⟨_, _, rfl⟩

theorem witness_ViolationMarkIsSticky :
    (∃ t, exec .poll { started 1 with violation := some (.rearmBusy .sending) } = .next t) ∧
      { started 1 with violation := some (.rearmBusy .sending) }.violation = some (.rearmBusy .sending) :=
  ⟨⟨_, rfl⟩, rfl⟩

/-- The invariant holds of the state after a `START`, with a frame of one bit and with the empty frame. -/
theorem inv_started {n : Nat} (hn : n ≤ 1) : EngineInv (started n) := by
  have hb := bufCap_pos Config.params
  constructor
  · simp [Legal, legal_iff, started, tuple]
  · simp [MemoryOk, Memory.wf, started, tuple, State.reset]
  · show n ≤ 8 * Config.params.bufCap
    omega
  all_goals simp [ProgressOk, FetchOk, expectedLine, WindowOk, started, tuple]

/-- A byte that differs from what an unwritten byte `a` reads as. -/
def otherByte (a : Nat) : Byte := ~~~Config.params.bufInit a

theorem otherByte_ne (a : Nat) : otherByte a ≠ Config.params.bufInit a := by
  unfold otherByte
  generalize Config.params.bufInit a = b
  revert b
  decide

/-- The second pass of the first window of a frame whose first byte is listed. -/
def inWindow : State :=
  { withBytes [(0, otherByte 0)] (tuple .sending .sending (bitOf (otherByte 0) 0) .high 1 0 0 .high 1) with
    window := [.high] }

/-- The invariant holds inside a window. -/
theorem inv_inWindow : EngineInv inWindow := by
  have hb := bufCap_pos Config.params
  have ht : 1 < threshold (bitOf (otherByte 0) 0) .high := by
    generalize bitOf (otherByte 0) 0 = bit
    cases bit <;> decide
  constructor
  · simp [Legal, legal_iff, inWindow, withBytes, tuple, ht]
  · simp [MemoryOk, Memory.wf, inWindow, withBytes, hb, otherByte_ne]
  · show 1 ≤ 8 * Config.params.bufCap
    omega
  · simp [ProgressOk, inWindow, withBytes, tuple]
  · simp [FetchOk, inWindow, withBytes, tuple, bufBit, readByte, byteIndex, bitOffset, Memory.read]
  · simp [expectedLine, inWindow, withBytes, tuple]
  · simp only [WindowOk, inWindow, withBytes, tuple, passesDone]
    generalize bitOf (otherByte 0) 0 = bit
    cases bit <;> decide

theorem witness_ResetEstablishesTheInvariant :
    ∃ t, exec .reset { started 24 with booted := false } = .next t := ⟨_, rfl⟩

theorem witness_StepKeepsTheInvariant :
    (EngineInv (started 1) ∧ ∃ t, step (started 1) = .next t) ∧ EngineInv inWindow :=
  ⟨⟨inv_started le_rfl, step_started⟩, inv_inWindow⟩

theorem witness_TickNeverStops : EngineInv (started 1) ∧ Running (started 1) ∧ TickTurn (started 1) :=
  ⟨inv_started le_rfl, by decide, by decide⟩

theorem witness_IdleIsQuiescentInEveryRun : Reachable State.reset ∧ State.reset.session = .idle :=
  ⟨Reachable.start [] [], rfl⟩

/-- A quiescent state with a frame of `n` bits, about to be started. -/
def ready (n : Nat) : State := tuple .idle .idle .zero .high 0 0 0 .low n

/-- The premises of R148, with ticks only. -/
theorem start_ready {n : Nat} (hn : n ≤ 1) : SessionStart (ready n) (started n) where
  running := ⟨rfl, rfl⟩
  quiescent := ⟨rfl, rfl, rfl, rfl, rfl, rfl⟩
  len := by
    have hb := bufCap_pos Config.params
    show n ≤ 8 * Config.params.bufCap
    omega
  start := rfl
  quiet := pollsOnly_nil _ _

/-- `q` with a host that polls, waits for the end of a session of one bit, and then writes a byte, as P3 does
between its frames. -/
def rewriting (q : State) : State :=
  { q with
    schedule := .foreground :: (List.replicate (sessionTicks 1) .tick ++ [.foreground])
    program :=
      [{ hOp := 0b00#2, hAddr := 7, hData := 0xFF#8, hLen := 9 }, { hOp := 0b01#2, hAddr := 0, hData := 0#8, hLen := 0 }] }

/-- The premises of R148, with a `POLL` at once and a `BUFWR` after the session. -/
theorem start_rewriting : SessionStart (rewriting (ready 1)) (rewriting (started 1)) where
  running := ⟨rfl, rfl⟩
  quiescent := ⟨rfl, rfl, rfl, rfl, rfl, rfl⟩
  len := (start_ready le_rfl).len
  start := rfl
  quiet := by
    have h := pollsOnly_ticks (sessionTicks 1) [{ hOp := 0b01#2, hAddr := 0, hData := 0#8, hLen := 0 }] [.foreground]
    have hn : sessionTicks 1 = 12 + Config.params.resetTicks + 1 := by simp [sessionTicks]; omega
    show pollsOnly (sessionTicks 1) (rewriting (started 1)).program (rewriting (started 1)).schedule = true
    simp only [rewriting]
    rw [hn] at h ⊢
    simpa [pollsOnly] using h

/-- A frame of one bit, the empty frame, and a host that polls during the session and writes after it. -/
theorem witness_SessionEndsAfterItsTicks :
    SessionStart (ready 1) (started 1) ∧ SessionStart (ready 0) (started 0) ∧
      SessionStart (rewriting (ready 1)) (rewriting (started 1)) ∧ 0 < stepsToTick (sessionTicks 1) [] :=
  ⟨start_ready le_rfl, start_ready (Nat.zero_le _), start_rewriting, by simp [sessionTicks]⟩

theorem witness_BitWindowsCarryTheFrameInOrder :
    SessionStart (rewriting (ready 1)) (rewriting (started 1)) ∧ 0 < (rewriting (started 1)).activeBitCount :=
  ⟨start_rewriting, by decide⟩

/-- The first and the last of a bit's eleven ticks. -/
theorem witness_WireShowsElevenTicksPerBit :
    SessionStart (ready 1) (started 1) ∧ 0 < (started 1).activeBitCount ∧ (1 ≤ 1 ∧ 1 ≤ 11) ∧ (1 ≤ 11 ∧ 11 ≤ 11) :=
  ⟨start_ready le_rfl, by decide, by decide, by decide⟩

theorem witness_EmptyFrameDrivesNoHigh :
    SessionStart (ready 0) (started 0) ∧ (started 0).activeBitCount = 0 ∧ 0 ≤ sessionTicks 0 :=
  ⟨start_ready (Nat.zero_le _), rfl, Nat.zero_le _⟩

/-- The first and the last tick of the gap. -/
theorem witness_ResetGapHoldsTheLineLow :
    Running (inGap 0) ∧ Legal (inGap 0) ∧ QuietFor Config.params.resetTicks (inGap 0) ∧ (inGap 0).session = .resetGap ∧
      (inGap 0).gapTicks = 0 ∧ (0 < 1 ∧ 1 ≤ Config.params.resetTicks ∧ 1 < Config.params.resetTicks) ∧
      0 < Config.params.resetTicks := by
  have hr : 40 ≤ Config.params.resetTicks := by simp [Params.resetTicks, Config.resetMinTicks]
  exact ⟨by decide, legal_inGap (by omega), pollsOnly_nil _ _, rfl, rfl, by omega, by omega⟩

theorem witness_LineIsLowFromTheLastHighToIdle :
    SessionStart (ready 1) (started 1) ∧ (started 1).activeBitCount = 0 + 1 := ⟨start_ready le_rfl, rfl⟩

/-- The first and the last pass of a window, and the first of the gap. -/
theorem witness_PassesDriveTheSymbolsInOrder :
    SessionStart (ready 1) (started 1) ∧ 0 < (started 1).activeBitCount ∧ 0 < 10 ∧ 9 < 10 ∧
      3 + 11 * 1 ≤ sessionTicks 1 := by
  have hr := resetTicks_pos Config.params
  exact ⟨start_ready le_rfl, by decide, by decide, by decide, by simp [sessionTicks]; omega⟩

/-- A frame of one bit with another byte behind it. -/
def withOther (s : State) : State := withBytes [(1, otherByte 1)] s

theorem start_withOther : SessionStart (withOther (ready 1)) (withOther (started 1)) where
  running := ⟨rfl, rfl⟩
  quiescent := ⟨rfl, rfl, rfl, rfl, rfl, rfl⟩
  len := (start_ready le_rfl).len
  start := rfl
  quiet := pollsOnly_nil _ _

/-- The two sessions differ in byte 1, and in when their hosts poll. -/
theorem witness_BytesBeyondTheFrameAreNotSent :
    SessionStart (rewriting (ready 1)) (rewriting (started 1)) ∧
      SessionStart (withOther (ready 1)) (withOther (started 1)) ∧
      (rewriting (started 1)).activeBitCount = (withOther (started 1)).activeBitCount ∧
      (∀ a, 8 * a < 1 →
        readByte Config.params (rewriting (started 1)) a = readByte Config.params (withOther (started 1)) a) ∧
      readByte Config.params (rewriting (started 1)) 1 ≠ readByte Config.params (withOther (started 1)) 1 := by
  refine ⟨start_rewriting, start_withOther, rfl, ?_, (otherByte_ne 1).symm⟩
  intro a ha
  obtain rfl : a = 0 := by omega
  rfl

/-- A session with a `POLL` before, between and after its first ticks. -/
def polled : State :=
  { started 1 with
    schedule := [.foreground, .tick, .foreground, .tick, .foreground]
    program := [{ hOp := 0b00#2, hAddr := 7, hData := 0xFF#8, hLen := 9 }, idlePort] }

/-- At the last of five turns, and between two ticks. -/
theorem witness_PollsDoNotDisturbTheEngine :
    EngineInv polled ∧ Running polled ∧ QuietFor 3 polled ∧ 5 ≤ stepsToTick 3 polled.schedule ∧
      2 ≤ stepsToTick 3 polled.schedule := by
  have h := inv_started le_rfl
  exact ⟨⟨h.legal, h.memory, h.len, h.progress, h.fetch, h.line, h.window⟩, by decide, by decide, by decide,
    by decide⟩

theorem witness_ReachableStartsMeetThePremises :
    Reachable State.reset ∧ State.reset.session = .idle ∧ HostQuiet { State.reset with session := .sending } :=
  ⟨Reachable.start [] [], rfl, pollsOnly_nil _ _⟩

/-- A `BUFWR` after the second tick leaves the first two quiet, and not the third. -/
theorem test_pollsOnly_ends_with_the_tick :
    pollsOnly 2 [idlePort, { idlePort with hOp := 0b01#2 }] [.foreground, .tick, .tick, .foreground] = true ∧
      pollsOnly 3 [idlePort, { idlePort with hOp := 0b01#2 }] [.foreground, .tick, .tick, .foreground] = false ∧
      stepsToTick 2 [.foreground, .tick, .tick, .foreground] = 3 := by decide

end Sys2Proof.Tests
end

/-!
SUPPORT. The proofs of the family `00_scope.md`: the parameters and the pulse table (R7, R8), which passes drive
the line (R10, R29), and the waveform on the wire tick by tick (R11, R101).
-/

namespace Sys2Proof.Proofs

open Sys2Proof.Machine Sys2Proof.Safety

/-! ## Parameters and pulse table -/

/-- The index width holds every bit count of the buffer. -/
theorem bufBits_lt_two_pow_wIdx (P : Params) : bufBits P < 2 ^ P.wIdx :=
  calc bufBits P < 2 ^ (Nat.log2 (8 * P.bufCap) + 1) := Nat.lt_log2_self
    _ ≤ 2 ^ P.wIdx := Nat.pow_le_pow_right (by decide) (Nat.le_add_left _ _)

/-- The two halves of a bit window take its ten passes. -/
theorem threshold_high_add_low (bit : FrameBit) : threshold bit .high + threshold bit .low = 10 := by
  cases bit <;> rfl

/-- Settles O41: each parameter is its least legal value and an excess. -/
theorem parametersMeetTheirBounds : Obligations.ParametersMeetTheirBounds :=
  ⟨Nat.le_add_left _ _, Nat.le_add_left _ _, Nat.le_add_left _ _, bufBits_lt_two_pow_wIdx _⟩

/-- Settles O42, by evaluating the pulse table. -/
theorem pulseTableFillsTheWindow : Obligations.PulseTableFillsTheWindow :=
  ⟨rfl, rfl, rfl, rfl, threshold_high_add_low⟩

/-! ## Which operations drive the line -/

section Drive

variable {P : Params} {s t : State}

/-- A `T_SHAPE` pass leaves the line at the level it drove. -/
theorem tShape_driven (h : tShape P s = .next t) : t.driven = some t.line := by
  obtain ⟨-, -, ⟨-, rfl⟩ | ⟨-, -, rfl⟩ | ⟨-, -, rfl⟩⟩ := tShape_eq_next.1 h <;> rfl

theorem tGap_driven (h : tGap P s = .next t) : t.driven = some t.line := by
  obtain ⟨-, -, ⟨-, rfl⟩ | ⟨-, rfl⟩⟩ := tGap_eq_next.1 h <;> rfl

/-- A symbol leaves the line at the level that the last of its passes drove. -/
theorem shapeWindow_driven {bit : FrameBit} (h : shapeWindow P bit s = .next t) : t.driven = some t.line := by
  obtain ⟨-, h⟩ := shapeWindow_eq_next.1 h
  obtain ⟨u, hu, h⟩ := shapePasses_succ_eq_next.1 h
  exact shapePasses_induction (I := fun v => v.driven = some v.line) (fun _ _ _ => tShape_driven) 9 u t
    (tShape_driven hu) h

theorem tIdle_undriven (h : tIdle P s = .next t) : t.line = s.line ∧ t.driven = none := by
  obtain ⟨-, -, rfl⟩ := tIdle_eq_next.1 h
  exact ⟨rfl, rfl⟩

theorem tEntry_undriven (h : tEntry P s = .next t) : t.line = s.line ∧ t.driven = none := by
  obtain ⟨-, -, rfl⟩ := tEntry_eq_next.1 h
  exact ⟨rfl, rfl⟩

theorem tStartbit_undriven (h : tStartbit P s = .next t) : t.line = s.line ∧ t.driven = none := by
  obtain ⟨-, -, ⟨-, rfl⟩ | ⟨-, -, rfl⟩⟩ := tStartbit_eq_next.1 h <;> exact ⟨rfl, rfl⟩

theorem tNextbit_undriven (h : tNextbit P s = .next t) : t.line = s.line ∧ t.driven = none := by
  obtain ⟨-, -, ⟨-, rfl⟩ | ⟨-, -, rfl⟩⟩ := tNextbit_eq_next.1 h <;> exact ⟨rfl, rfl⟩

theorem bufwr_line {i : Nat} {v : Byte} (h : bufwr P i v s = .next t) : t.line = s.line := by
  obtain ⟨-, -, rfl⟩ := bufwr_eq_next.1 h
  rfl

theorem setlen_line {n : Nat} (h : setlen P n s = .next t) : t.line = s.line := by
  obtain ⟨-, -, rfl⟩ := setlen_eq_next.1 h
  rfl

theorem execStart_line (h : execStart s = .next t) : t.line = s.line := by
  obtain ⟨-, rfl⟩ := execStart_eq_next.1 h
  rfl

theorem arm_line {n : Nat} {colors : List Byte} (h : arm P n colors s = .next t) : t.line = s.line := by
  obtain ⟨-, -, -, u, -, rfl⟩ := arm_eq_next h
  rfl

end Drive

/-- Settles O29: an operation is one that drives, a pass that does not, or one of the host port. -/
theorem onlyShapeAndGapDriveTheLine : Obligations.OnlyShapeAndGapDriveTheLine := by
  intro i s t h hi
  cases i with
  | reset => exact absurd rfl hi
  | poll => cases h; simp
  | bufwr i v => simpa using bufwr_line h
  | setlen n => simpa using setlen_line h
  | start => simpa using execStart_line h
  | arm n colors => simpa using arm_line h
  | tIdle => simpa using tIdle_undriven h
  | tEntry => simpa using tEntry_undriven h
  | tStartbit => simpa using tStartbit_undriven h
  | tNextbit => simpa using tNextbit_undriven h
  | tShape => simpa using tShape_driven h
  | tGap => simpa using tGap_driven h
  | sym0 => simpa using shapeWindow_driven h
  | sym1 => simpa using shapeWindow_driven h

/-! ## The tick agent alone -/

/-- The arm that a tick runs in `s` (R65, R90). -/
def tickArm (s : State) : Instr :=
  match s.session, s.bitPhase with
  | .idle, _ => .tIdle
  | .sending, .idle => .tEntry
  | .sending, .startBit => .tStartbit
  | .sending, .sending => .tShape
  | .sending, .nextBit => .tNextbit
  | .resetGap, _ => .tGap

theorem decode_selector_eq_tickArm (s : State) :
    decode (.tick (selector s.session s.bitPhase)) = .ok (tickArm s) := by
  rw [decode_selector]
  rfl

/-- The machine can step, and every turn to come is a tick's (log 2). -/
abbrev TicksOnly (s : State) : Prop := Running s ∧ s.schedule = []

theorem step_of_ticksOnly {s : State} (h : TicksOnly s) : step s = exec (tickArm s) s := by
  obtain ⟨⟨hv, hb⟩, hs⟩ := h
  have hw : fetchWord s = .tick (selector s.session s.bitPhase) := by simp only [fetchWord, hs]
  simp [step, hv, hw, decode_selector_eq_tickArm, mayRun, hb, fetchRest_of_schedule_nil hs]

theorem run_succ_of_next {k : Nat} {s u v : State} (hu : run k s = .next u) (hv : step u = .next v) :
    run (k + 1) s = .next v := by
  rw [run_add_of_next hu, run_succ, hv, andThen_next, run_zero]

/-! ## The host's side of the state, which no tick reads or writes -/

/-- `s` with another result port, other words to present and other turns to come. -/
def withHostSide (r : BitVec 2) (ws : List HostWord) (ts : List Turn) (s : State) : State :=
  { s with hRdata := r, program := ws, schedule := ts }

/-- A tick's arm neither reads nor writes the host's side. -/
theorem exec_tickArm_withHostSide {s t : State} (h : exec (tickArm s) s = .next t) (r : BitVec 2)
    (ws : List HostWord) (ts : List Turn) :
    exec (tickArm s) (withHostSide r ws ts s) = .next (withHostSide r ws ts t) := by
  unfold tickArm at h ⊢
  split at h
  · obtain ⟨hl, hs, rfl⟩ := tIdle_eq_next.1 h
    exact tIdle_eq_next.2 ⟨hl, hs, rfl⟩
  · obtain ⟨hl, hs, rfl⟩ := tEntry_eq_next.1 h
    exact tEntry_eq_next.2 ⟨hl, hs, rfl⟩
  · obtain ⟨hl, hs, ⟨hb, rfl⟩ | ⟨hb, hf, rfl⟩⟩ := tStartbit_eq_next.1 h
    · exact tStartbit_eq_next.2 ⟨hl, hs, .inl ⟨hb, rfl⟩⟩
    · exact tStartbit_eq_next.2 ⟨hl, hs, .inr ⟨hb, hf, rfl⟩⟩
  · obtain ⟨hl, hs, ⟨hp, rfl⟩ | ⟨hp, hh, rfl⟩ | ⟨hp, hh, rfl⟩⟩ := tShape_eq_next.1 h
    · exact tShape_eq_next.2 ⟨hl, hs, .inl ⟨hp, rfl⟩⟩
    · exact tShape_eq_next.2 ⟨hl, hs, .inr (.inl ⟨hp, hh, rfl⟩)⟩
    · exact tShape_eq_next.2 ⟨hl, hs, .inr (.inr ⟨hp, hh, rfl⟩)⟩
  · obtain ⟨hl, hs, ⟨hb, rfl⟩ | ⟨hb, hf, rfl⟩⟩ := tNextbit_eq_next.1 h
    · exact tNextbit_eq_next.2 ⟨hl, hs, .inl ⟨hb, rfl⟩⟩
    · exact tNextbit_eq_next.2 ⟨hl, hs, .inr ⟨hb, hf, rfl⟩⟩
  · obtain ⟨hl, hs, ⟨hg, rfl⟩ | ⟨hg, rfl⟩⟩ := tGap_eq_next.1 h
    · exact tGap_eq_next.2 ⟨hl, hs, .inl ⟨hg, rfl⟩⟩
    · exact tGap_eq_next.2 ⟨hl, hs, .inr ⟨hg, rfl⟩⟩

/-- A tick's arm leaves the mark, `booted` and the turns to come. -/
theorem exec_tickArm_frame {s t : State} (h : exec (tickArm s) s = .next t) :
    t.violation = s.violation ∧ t.booted = s.booted ∧ t.schedule = s.schedule := by
  unfold tickArm at h
  split at h
  · obtain ⟨-, -, rfl⟩ := tIdle_eq_next.1 h
    exact ⟨rfl, rfl, rfl⟩
  · obtain ⟨-, -, rfl⟩ := tEntry_eq_next.1 h
    exact ⟨rfl, rfl, rfl⟩
  · obtain ⟨-, -, ⟨-, rfl⟩ | ⟨-, -, rfl⟩⟩ := tStartbit_eq_next.1 h <;> exact ⟨rfl, rfl, rfl⟩
  · obtain ⟨-, -, ⟨-, rfl⟩ | ⟨-, -, rfl⟩ | ⟨-, -, rfl⟩⟩ := tShape_eq_next.1 h <;> exact ⟨rfl, rfl, rfl⟩
  · obtain ⟨-, -, ⟨-, rfl⟩ | ⟨-, -, rfl⟩⟩ := tNextbit_eq_next.1 h <;> exact ⟨rfl, rfl, rfl⟩
  · obtain ⟨-, -, ⟨-, rfl⟩ | ⟨-, rfl⟩⟩ := tGap_eq_next.1 h <;> exact ⟨rfl, rfl, rfl⟩

theorem ticksOnly_of_step {s t : State} (hs : TicksOnly s) (h : step s = .next t) : TicksOnly t := by
  rw [step_of_ticksOnly hs] at h
  obtain ⟨hv, hb, ht⟩ := exec_tickArm_frame h
  exact ⟨⟨hv.trans hs.1.1, hb.trans hs.1.2⟩, ht.trans hs.2⟩

/-- A tick among other turns does what it does among ticks alone. -/
theorem step_withHostSide_of_tick {b v : State} (hb : TicksOnly b) (h : step b = .next v) (r : BitVec 2)
    (ws : List HostWord) {ts : List Turn} (ht : ts.head?.getD .tick = .tick) :
    step (withHostSide r ws ts b) = .next (withHostSide r ws ts.tail v) := by
  rw [step_of_ticksOnly hb] at h
  have hx := exec_tickArm_withHostSide h r ws ts.tail
  have hd := decode_selector_eq_tickArm b
  cases ts with
  | nil => exact step_eq_next.2 ⟨hb.1.1, tickArm b, hd, .inl hb.1.2, hx⟩
  | cons t ts =>
    obtain rfl : t = .tick := by simpa using ht
    exact step_eq_next.2 ⟨hb.1.1, tickArm b, hd, .inl hb.1.2, hx⟩

/-- While the host only polls, the engine's side is at every point of the interleaving what as many ticks alone
lead to. -/
theorem run_withHostSide (ts : List Turn) {n j : Nat} {b u : State} (r : BitVec 2) (ws : List HostWord)
    (hb : TicksOnly b) (hq : pollsOnly n ws ts = true) (hj : j ≤ stepsToTick n ts)
    (hu : run (ticksBy j ts) b = .next u) :
    ∃ r' ws', run j (withHostSide r ws ts b) = .next (withHostSide r' ws' (ts.drop j) u) := by
  induction j generalizing ts n b r ws with
  | zero =>
    obtain rfl : b = u := by simpa using hu
    exact ⟨r, ws, rfl⟩
  | succ j ih =>
    obtain _ | n := n
    · simp at hj
    match ts with
    | [] =>
      rw [ticksBy_nil, run_succ] at hu
      obtain ⟨v, hv, hu⟩ := andThen_eq_next.1 hu
      rw [run_succ, step_withHostSide_of_tick hb hv r ws rfl, andThen_next]
      simpa using ih [] (n := n) r ws (ticksOnly_of_step hb hv) (pollsOnly_nil _ _) (by simpa using hj)
        (by simpa using hu)
    | .tick :: ts =>
      rw [ticksBy, run_succ] at hu
      obtain ⟨v, hv, hu⟩ := andThen_eq_next.1 hu
      rw [run_succ, step_withHostSide_of_tick hb hv r ws rfl, andThen_next]
      exact ih ts r ws (ticksOnly_of_step hb hv) hq (Nat.le_of_succ_le_succ hj) hu
    | .foreground :: ts =>
      obtain ⟨hw, hq⟩ := Bool.and_eq_true_iff.1 hq
      rw [run_succ, step_of_poll (s := withHostSide r ws (.foreground :: ts) b) hb.1 rfl (of_decide_eq_true hw)]
      exact ih ts (b := b) _ _ hb hq (Nat.le_of_succ_le_succ hj) hu
    | .reset :: _ => cases hq
    | .symbol _ :: _ => cases hq

/-- The state at tick `n` of a quiet stretch is, but for the host's side, what `n` ticks alone lead to. -/
theorem atTick_of_run {m n : Nat} {s u : State} (hr : Running s) (hq : QuietFor m s) (hn : n ≤ m)
    (hu : run n { s with schedule := [], program := [] } = .next u) :
    ∃ r ws ts, atTick n s = .next (withHostSide r ws ts u) := by
  rw [← ticksBy_stepsToTick n s.schedule] at hu
  obtain ⟨r, ws, h⟩ :=
    run_withHostSide s.schedule (b := { s with schedule := [], program := [] }) s.hRdata s.program ⟨hr, rfl⟩
      (pollsOnly_mono hn hq) le_rfl hu
  exact ⟨r, ws, _, h⟩

/-! ## The ten passes of a bit window (R62, R99) -/

/-- The level that pass `p` of the window of `bit` drives, counted from 0. -/
def windowLevel (bit : FrameBit) (p : Nat) : Level := if p < threshold bit .high then .high else .low

theorem take_succ_windowLevels : ∀ (bit : FrameBit) (p : Nat), p < 10 →
    (windowLevels bit).take (p + 1) = (windowLevels bit).take p ++ [windowLevel bit p] := by
  intro bit
  cases bit <;> decide

theorem one_lt_threshold_high (bit : FrameBit) : 1 < threshold bit .high := by cases bit <;> decide

theorem threshold_high_lt_ten (bit : FrameBit) : threshold bit .high < 10 := by cases bit <;> decide

/-- The window of `u.currentBit` is due, in a state of the R37 table with only ticks to come. -/
structure WindowDue (u : State) : Prop where
  ticks : TicksOnly u
  start : atWindowStart u.currentBit u
  gap : u.gapTicks = 0

/-- Pass `p` of the window due in `u` is next; what earlier passes recorded is given. -/
def atPass (u : State) (p : Nat) (line : Level) (driven : Option Level) (window : List Level) : State :=
  { u with
    half := if p < threshold u.currentBit .high then .high else .low
    pulseTicks := if p < threshold u.currentBit .high then p else p - threshold u.currentBit .high
    line := line, driven := driven, window := window }

/-- The window due in `u` right after its pass `p`, short of the last. -/
def afterPass (u : State) (p : Nat) : State :=
  atPass u (p + 1) (windowLevel u.currentBit p) (some (windowLevel u.currentBit p))
    ((windowLevels u.currentBit).take (p + 1))

/-- The window due in `u` right after its last pass. -/
def windowClosed (u : State) : State :=
  { u with
    half := .high, pulseTicks := 0, bitIndex := u.bitIndex + 1, bitPhase := .nextBit, line := .low,
    driven := some .low, window := windowLevels u.currentBit }

section Window

variable {u : State}

/-- A due window is at its pass 0, whatever the line showed before. -/
theorem eq_atPass_zero (h : WindowDue u) : u = atPass u 0 u.line u.driven u.window := by
  obtain ⟨-, -, hh, hp, -⟩ := h.start
  have hT := threshold_pos u.currentBit .high
  rw [atPass, if_pos hT, if_pos hT, ← hp, ← hh]

theorem halfLevel_atPass (u : State) (p : Nat) (l : Level) (d : Option Level) (w : List Level) :
    halfLevel (atPass u p l d w).half = windowLevel u.currentBit p := by
  unfold atPass windowLevel
  split <;> rfl

/-- Every pass of a window is of a state of the R37 table. -/
theorem legal_atPass (h : WindowDue u) {p : Nat} (hp : p < 10) (l : Level) (d : Option Level) (w : List Level) :
    legal Config.params (atPass u p l d w) = true := by
  obtain ⟨hs, hb, -⟩ := h.start
  have hT := threshold_high_add_low u.currentBit
  refine legal_iff.2 (.inr (.inr (.inl ⟨hs, hb, ?_, h.gap⟩)))
  by_cases hlt : p < threshold u.currentBit .high
  · simp [atPass, hlt]
  · simp only [atPass, if_neg hlt]
    omega

/-- The tick at a pass of a window runs `T_SHAPE`. -/
theorem step_atPass (h : WindowDue u) (p : Nat) (l : Level) (d : Option Level) (w : List Level) :
    step (atPass u p l d w) = exec .tShape (atPass u p l d w) := by
  obtain ⟨hs, hb, -⟩ := h.start
  have ha : tickArm (atPass u p l d w) = .tShape := by simp only [tickArm, atPass, hs, hb]
  rw [step_of_ticksOnly (s := atPass u p l d w) h.ticks, ha]

/-- The window observation grows by the level of the pass. -/
theorem extendWindow_atPass {p : Nat} (hp : p < 10) (l : Level) (d : Option Level) {w : List Level}
    (hw : p = 0 ∨ w = (windowLevels u.currentBit).take p) :
    extendWindow (atPass u p l d w) (windowLevel u.currentBit p) = (windowLevels u.currentBit).take (p + 1) := by
  have hT := threshold_pos u.currentBit .high
  rw [take_succ_windowLevels _ _ hp, extendWindow]
  obtain rfl | hp0 := Nat.eq_zero_or_pos p
  · simp [atPass, hT]
  · have hw : w = (windowLevels u.currentBit).take p := hw.resolve_left (by omega)
    have hn : ¬ ((atPass u p l d w).half = .high ∧ (atPass u p l d w).pulseTicks = 0) := by
      by_cases hlt : p < threshold u.currentBit .high <;> simp [atPass, hlt]
      omega
    rw [if_neg hn, ← hw]
    rfl

/-- A pass short of the last: the level is driven, and the next pass is due in the half it falls in. -/
theorem step_atPass_of_lt_nine (h : WindowDue u) {p : Nat} (hp : p < 9) (l : Level) (d : Option Level)
    {w : List Level} (hw : p = 0 ∨ w = (windowLevels u.currentBit).take p) :
    step (atPass u p l d w) = .next (afterPass u p) := by
  obtain ⟨hs, hb, -⟩ := h.start
  have hT := threshold_high_add_low u.currentBit
  have hx := extendWindow_atPass (u := u) (by omega) l d hw
  have hl := halfLevel_atPass u p l d w
  rw [step_atPass h]
  refine tShape_eq_next.2 ⟨legal_atPass h (by omega) l d w, ⟨hs, hb⟩, ?_⟩
  rw [shapeDrive, hl, hx]
  rcases Nat.lt_trichotomy (p + 1) (threshold u.currentBit .high) with hlt | heq | hgt
  · have hlt' : p < threshold u.currentBit .high := by omega
    refine .inl ⟨?_, ?_⟩
    · simp only [atPass, if_pos hlt']
      omega
    · simp [afterPass, atPass, hlt, hlt', drive, beginPass]
  · have hlt' : p < threshold u.currentBit .high := by omega
    refine .inr (.inl ⟨?_, ?_, ?_⟩)
    · simpa [atPass, hlt'] using heq
    · simp [atPass, hlt']
    · simp [afterPass, atPass, heq, drive, beginPass]
  · have hge : ¬ p < threshold u.currentBit .high := by omega
    refine .inl ⟨?_, ?_⟩
    · simp only [atPass, if_neg hge]
      omega
    · simp [afterPass, atPass, hge, Nat.not_lt.2 (Nat.le_of_lt hgt), drive, beginPass]
      omega

/-- The last pass closes the window. -/
theorem step_atPass_nine (h : WindowDue u) (l : Level) (d : Option Level) :
    step (atPass u 9 l d ((windowLevels u.currentBit).take 9)) = .next (windowClosed u) := by
  obtain ⟨hs, hb, -⟩ := h.start
  have hT := threshold_high_add_low u.currentBit
  have hlow := threshold_pos u.currentBit .low
  have hge : ¬ 9 < threshold u.currentBit .high := by omega
  have hx := extendWindow_atPass (u := u) (p := 9) (by decide) l d (.inr rfl)
  have hl := halfLevel_atPass u 9 l d ((windowLevels u.currentBit).take 9)
  have ht : (windowLevels u.currentBit).take (9 + 1) = windowLevels u.currentBit := by cases u.currentBit <;> rfl
  have hv : windowLevel u.currentBit 9 = .low := if_neg hge
  rw [step_atPass h]
  refine tShape_eq_next.2 ⟨legal_atPass h (by decide) l d _, ⟨hs, hb⟩, .inr (.inr ⟨?_, ?_, ?_⟩)⟩
  · simp only [atPass, if_neg hge]
    omega
  · simp [atPass, hge]
  · rw [shapeDrive, hl, hx, ht, hv]
    rfl

theorem run_afterPass (h : WindowDue u) {p : Nat} (hp : p < 9) : run (p + 1) u = .next (afterPass u p) := by
  induction p with
  | zero =>
    have h0 := step_atPass_of_lt_nine h hp u.line u.driven (w := u.window) (.inl rfl)
    rw [← eq_atPass_zero h] at h0
    exact run_succ_of_next (run_zero u) h0
  | succ p ih => exact run_succ_of_next (ih (by omega)) (step_atPass_of_lt_nine h hp _ _ (.inr rfl))

theorem run_windowClosed (h : WindowDue u) : run 10 u = .next (windowClosed u) :=
  run_succ_of_next (run_afterPass h (p := 8) (by decide)) (step_atPass_nine h _ _)

end Window

/-! ## A session by ticks alone (R92, R93, R95, R101) -/

/-- What a `START` under the premises of R148 leads to, with only ticks to come. -/
structure SessionDue (s : State) : Prop where
  ticks : TicksOnly s
  session : s.session = .sending
  bitPhase : s.bitPhase = .idle
  half : s.half = .high
  pulseTicks : s.pulseTicks = 0
  gapTicks : s.gapTicks = 0
  line : s.line = .low
  len : LenOk s

/-- The premises of R148, with the turns of the foreground context left out. -/
theorem sessionDue_of_sessionStart {q s : State} (h : SessionStart q s) :
    SessionDue { s with schedule := [], program := [] } := by
  obtain ⟨-, hp, hh, ht, hg, hl⟩ := h.quiescent
  rw [sessionStart_eq h]
  exact ⟨⟨h.running, rfl⟩, rfl, hp, hh, ht, hg, hl, h.len⟩

/-- The session due in `s` after its `T_ENTRY` pass. -/
def entered (s : State) : State :=
  { s with
    bitIndex := 0, pulseTicks := 0, currentBit := bufBit Config.params s 0, bitPhase := .startBit, driven := none }

/-- The session due in `s` where the window of frame bit `k` is due. -/
def windowDue (s : State) (k : Nat) (window : List Level) : State :=
  { s with
    bitPhase := .sending, currentBit := bufBit Config.params s k, bitIndex := k, driven := none, window := window }

section Session

variable {s : State}

theorem step_of_sessionDue (h : SessionDue s) : step s = .next (entered s) := by
  have ha : tickArm s = .tEntry := by simp only [tickArm, h.session, h.bitPhase]
  have hl : legal Config.params s = true :=
    legal_iff.2 (.inr (.inl ⟨h.session, by simp [h.bitPhase], h.half, h.pulseTicks, h.gapTicks⟩))
  rw [step_of_ticksOnly h.ticks, ha]
  exact tEntry_eq_next.2 ⟨hl, ⟨h.session, h.bitPhase⟩, rfl⟩

theorem legal_entered (h : SessionDue s) : legal Config.params (entered s) = true :=
  legal_iff.2 (.inr (.inl ⟨h.session, by simp [entered], h.half, rfl, h.gapTicks⟩))

theorem step_entered (h : SessionDue s) : step (entered s) = exec .tStartbit (entered s) := by
  have ha : tickArm (entered s) = .tStartbit := by simp only [tickArm, entered, h.session]
  rw [step_of_ticksOnly (s := entered s) h.ticks, ha]

/-- The empty frame goes to the completion test (R93). -/
theorem step_entered_of_empty (h : SessionDue s) (hn : s.activeBitCount = 0) :
    step (entered s) = .next { entered s with bitPhase := .nextBit } := by
  rw [step_entered h]
  exact tStartbit_eq_next.2 ⟨legal_entered h, ⟨h.session, rfl⟩, .inl ⟨hn.symm, rfl⟩⟩

/-- Any other frame goes to the window of its first bit, bit 0 of byte 0 (R93). -/
theorem step_entered_of_pos (h : SessionDue s) (hn : 0 < s.activeBitCount) :
    step (entered s) = .next (windowDue s 0 s.window) := by
  have hb : 0 < bufBits Config.params := Nat.lt_of_lt_of_le hn h.len
  rw [step_entered h]
  refine tStartbit_eq_next.2 ⟨legal_entered h, ⟨h.session, rfl⟩, .inr ⟨Nat.ne_of_lt hn, hb, ?_⟩⟩
  calc windowDue s 0 s.window = { windowDue s 0 s.window with pulseTicks := s.pulseTicks } := rfl
    _ = _ := by rw [h.pulseTicks]; rfl

/-- The state at the due window is as the ten passes need it. -/
theorem windowDue_due (h : SessionDue s) (k : Nat) (w : List Level) : WindowDue (windowDue s k w) where
  ticks := h.ticks
  start := ⟨h.session, rfl, h.half, h.pulseTicks, rfl⟩
  gap := h.gapTicks

theorem step_windowClosed (h : SessionDue s) (k : Nat) (w : List Level) :
    step (windowClosed (windowDue s k w)) = exec .tNextbit (windowClosed (windowDue s k w)) := by
  have ha : tickArm (windowClosed (windowDue s k w)) = .tNextbit := by
    simp only [tickArm, windowClosed, windowDue, h.session]
  rw [step_of_ticksOnly (s := windowClosed (windowDue s k w)) h.ticks, ha]

theorem legal_windowClosed (h : SessionDue s) (k : Nat) (w : List Level) :
    legal Config.params (windowClosed (windowDue s k w)) = true :=
  legal_iff.2 (.inr (.inl ⟨h.session, by simp [windowClosed], rfl, rfl, h.gapTicks⟩))

/-- After a bit's window comes the next bit's. -/
theorem step_windowClosed_of_lt (h : SessionDue s) {k : Nat} (hk : k + 1 < s.activeBitCount) (w : List Level) :
    step (windowClosed (windowDue s k w)) =
      .next (windowDue s (k + 1) (windowLevels (bufBit Config.params s k))) := by
  have hb : k + 1 < bufBits Config.params := Nat.lt_of_lt_of_le hk h.len
  rw [step_windowClosed h]
  refine tNextbit_eq_next.2 ⟨legal_windowClosed h k w, ⟨h.session, rfl⟩, .inr ⟨Nat.ne_of_lt hk, hb, ?_⟩⟩
  calc windowDue s (k + 1) (windowLevels (bufBit Config.params s k))
      = { windowDue s (k + 1) (windowLevels (bufBit Config.params s k)) with
          half := s.half, pulseTicks := s.pulseTicks, line := s.line } := rfl
    _ = _ := by rw [h.half, h.pulseTicks, h.line]; rfl

/-- After the last bit's window comes the reset gap. -/
theorem step_windowClosed_of_eq (h : SessionDue s) {k : Nat} (hk : k + 1 = s.activeBitCount) (w : List Level) :
    step (windowClosed (windowDue s k w)) =
      .next { windowClosed (windowDue s k w) with bitPhase := .idle, session := .resetGap, driven := none } := by
  rw [step_windowClosed h]
  exact tNextbit_eq_next.2 ⟨legal_windowClosed h k w, ⟨h.session, rfl⟩, .inl ⟨hk, rfl⟩⟩

/-- The window of bit `k` is due after tick `2 + 11k`. -/
theorem run_windowDue (h : SessionDue s) {k : Nat} (hk : k < s.activeBitCount) :
    ∃ w, run (2 + 11 * k) s = .next (windowDue s k w) := by
  induction k with
  | zero =>
    have h1 : run 1 s = .next (entered s) := run_succ_of_next (run_zero s) (step_of_sessionDue h)
    exact ⟨s.window, run_succ_of_next h1 (step_entered_of_pos h hk)⟩
  | succ k ih =>
    obtain ⟨w, hw⟩ := ih (by omega)
    have h10 : run (2 + 11 * k + 10) s = .next (windowClosed (windowDue s k w)) := by
      rw [run_add_of_next hw, run_windowClosed (windowDue_due h k w)]
    exact ⟨_, run_succ_of_next h10 (step_windowClosed_of_lt h hk w)⟩

/-- The line is LOW in the two passes before the first window. -/
theorem run_line_low (h : SessionDue s) {k : Nat} (hk : k ≤ 2) : ∃ u, run k s = .next u ∧ u.line = .low := by
  have h1 : run 1 s = .next (entered s) := run_succ_of_next (run_zero s) (step_of_sessionDue h)
  match k, hk with
  | 0, _ => exact ⟨s, rfl, h.line⟩
  | 1, _ => exact ⟨entered s, h1, h.line⟩
  | 2, _ =>
    rcases Nat.eq_zero_or_pos s.activeBitCount with hn | hn
    · exact ⟨_, run_succ_of_next h1 (step_entered_of_empty h hn), h.line⟩
    · exact ⟨_, run_succ_of_next h1 (step_entered_of_pos h hn), h.line⟩

/-- The pass after a window leaves the line LOW, whether another bit follows or the gap. -/
theorem step_windowClosed_line (h : SessionDue s) {k : Nat} (hk : k < s.activeBitCount) (w : List Level) :
    ∃ u, step (windowClosed (windowDue s k w)) = .next u ∧ u.line = .low := by
  rcases Nat.lt_or_eq_of_le (Nat.succ_le_of_lt hk) with hlt | heq
  · exact ⟨_, step_windowClosed_of_lt h hlt w, h.line⟩
  · exact ⟨_, step_windowClosed_of_eq h heq w, rfl⟩

/-- The eleven ticks of bit `k`: nine passes and the tenth of its window, and the pass after it. -/
theorem run_bit_line (h : SessionDue s) {k j : Nat} (hk : k < s.activeBitCount) (hj : 1 ≤ j) (hj' : j ≤ 11) :
    ∃ u, run (2 + 11 * k + j) s = .next u ∧
      u.line = if j ≤ threshold (bufBit Config.params s k) .high then .high else .low := by
  obtain ⟨w, hw⟩ := run_windowDue h hk
  have hT := threshold_high_lt_ten (bufBit Config.params s k)
  have hdue := windowDue_due h k w
  rw [run_add_of_next hw]
  obtain hlt | rfl | rfl : j < 10 ∨ j = 10 ∨ j = 11 := by omega
  · obtain ⟨p, rfl⟩ : ∃ p, j = p + 1 := ⟨j - 1, by omega⟩
    exact ⟨_, run_afterPass hdue (by omega), rfl⟩
  · exact ⟨_, run_windowClosed hdue, (if_neg (by omega)).symm⟩
  · obtain ⟨u, hu, hl⟩ := step_windowClosed_line h hk w
    exact ⟨u, run_succ_of_next (run_windowClosed hdue) hu, by rw [hl, if_neg (by omega)]⟩

end Session

/-- A session reaches each of its ticks, in the state that ticks alone lead to but for the host's side. -/
theorem atTick_of_sessionStart {q s u : State} (h : SessionStart q s) {n : Nat}
    (hn : n ≤ sessionTicks s.activeBitCount) (hu : run n { s with schedule := [], program := [] } = .next u) :
    ∃ r ws ts, atTick n s = .next (withHostSide r ws ts u) :=
  atTick_of_run (by rw [sessionStart_eq h]; exact h.running) h.quiet hn hu

/-- Two ticks, and eleven for every bit, are ticks of the session. -/
theorem two_add_le_sessionTicks {n k j : Nat} (hk : k < n) (hj : j ≤ 11) : 2 + 11 * k + j ≤ sessionTicks n := by
  unfold sessionTicks
  split <;> omega

theorem two_le_sessionTicks (n : Nat) : 2 ≤ sessionTicks n := by
  unfold sessionTicks
  split <;> omega

/-- Settles O49: `POLL`s leave the engine's run alone, and by ticks alone the line is LOW up to the first window
and then follows each bit's ten passes and the pass after them. -/
theorem wireShowsElevenTicksPerBit : Obligations.WireShowsElevenTicksPerBit := by
  intro q s h
  have hd := sessionDue_of_sessionStart h
  refine ⟨fun k hk => ?_, fun k j hk hj hj' => ?_⟩
  · obtain ⟨u, hu, hl⟩ := run_line_low hd hk
    obtain ⟨r, ws, ts, ht⟩ := atTick_of_sessionStart h (hk.trans (two_le_sessionTicks _)) hu
    exact ⟨_, ht, hl⟩
  · obtain ⟨u, hu, hl⟩ := run_bit_line hd hk hj hj'
    obtain ⟨r, ws, ts, ht⟩ := atTick_of_sessionStart h (two_add_le_sessionTicks hk hj') hu
    exact ⟨_, ht, hl⟩

end Sys2Proof.Proofs

/-!
SUPPORT. The proofs of the family `10_state.md`: the engine invariant (R26 to R29, R36, R37) at reset, along every
operation and in every run, the moves of `session` and `bit_phase` (R21, R97), and V7 outside the table of R37.
-/

namespace Sys2Proof.Proofs

open Sys2Proof.Machine Sys2Proof.Safety

/-! ## V7 outside the table of R37 -/

/-- Settles O30: each of the six arms is a pass, and a pass looks at the table first. -/
theorem tickOutsideTheTableIsRefused : Obligations.TickOutsideTheTableIsRefused := by
  intro i s hi hl
  simp only [List.mem_cons, List.not_mem_nil, or_false] at hi
  obtain rfl | rfl | rfl | rfl | rfl | rfl := hi <;> exact if_neg hl

/-! ## What the table of R37 and the invariant say of each phase -/

section Rows

variable {P : Params} {s : State}

theorem bitPhase_idle_of_not_sending (hl : legal P s = true) (hs : s.session ≠ .sending) : s.bitPhase = .idle := by
  obtain ⟨-, hp, -⟩ | ⟨h, -⟩ | ⟨h, -⟩ | ⟨-, hp, -⟩ := legal_iff.1 hl
  · exact hp
  · exact absurd h hs
  · exact absurd h hs
  · exact hp

theorem gapTicks_eq_zero_of_sending (hl : legal P s = true) (hs : s.session = .sending) : s.gapTicks = 0 := by
  obtain ⟨-, -, -, -, hg⟩ | ⟨-, -, -, -, hg⟩ | ⟨-, -, -, hg⟩ | ⟨h, -⟩ := legal_iff.1 hl
  · exact hg
  · exact hg
  · exact hg
  · simp [hs] at h

theorem pulseTicks_lt_threshold (hl : legal P s = true) (hp : s.bitPhase = .sending) :
    s.pulseTicks < threshold s.currentBit s.half := by
  obtain ⟨-, h, -⟩ | ⟨-, h, -⟩ | ⟨-, -, hc, -⟩ | ⟨-, h, -⟩ := legal_iff.1 hl
  · simp [hp] at h
  · exact absurd hp h
  · exact hc
  · simp [hp] at h

/-- No part of a window has been driven: `half` High, `pulse_ticks` 0 and the line LOW. -/
structure LineAtRest (s : State) : Prop where
  half : s.half = .high
  pulse : s.pulseTicks = 0
  low : s.line = .low

theorem expectedLine_of_first_pass (hh : s.half = .high) (hc : s.pulseTicks = 0) : expectedLine s = .low := by
  unfold expectedLine
  split <;> simp_all

theorem line_eq_expectedLine (h : LineAtRest s) : s.line = expectedLine s :=
  h.low.trans (expectedLine_of_first_pass h.half h.pulse).symm

/-- The line rests in every phase but Sending. -/
theorem lineAtRest_of_inv (h : EngineInv s) (hp : s.bitPhase ≠ .sending) : LineAtRest s := by
  have hr : s.half = .high ∧ s.pulseTicks = 0 := by
    obtain ⟨-, -, hh, hc, -⟩ | ⟨-, -, hh, hc, -⟩ | ⟨-, h, -⟩ | ⟨-, -, hh, hc, -⟩ := legal_iff.1 h.legal
    · exact ⟨hh, hc⟩
    · exact ⟨hh, hc⟩
    · exact absurd h hp
    · exact ⟨hh, hc⟩
  exact ⟨hr.1, hr.2, h.line.trans (expectedLine_of_first_pass hr.1 hr.2)⟩

/-- Idle is quiescent wherever the invariant holds (R36). -/
theorem quiescent_of_inv (h : EngineInv s) (hs : s.session = .idle) : Quiescent s := by
  have hp := bitPhase_idle_of_not_sending h.legal (by simp [hs])
  have hr := lineAtRest_of_inv h (by simp [hp])
  have hg : s.gapTicks = 0 := by simpa [Legal, legal_iff, hs, hp, hr.half, hr.pulse] using h.legal
  exact ⟨hs, hp, hr.half, hr.pulse, hg, hr.low⟩

/-! The invariant of a state in each part of the table, from the facts that the part asks for. -/

theorem inv_of_quiescent (hq : Quiescent s) (hm : MemoryOk s) (hl : LenOk s) : EngineInv s := by
  obtain ⟨hs, hp, hh, hc, hg, hlow⟩ := hq
  exact
    { legal := legal_iff.2 (.inl ⟨hs, hp, hh, hc, hg⟩)
      memory := hm
      len := hl
      progress := by simp [ProgressOk, hs]
      fetch := by simp [FetchOk, hs]
      line := line_eq_expectedLine ⟨hh, hc, hlow⟩
      window := by simp [WindowOk, hs] }

/-- The rows of Sending between two windows. -/
theorem inv_of_between (hs : s.session = .sending) (hp : s.bitPhase ≠ .sending) (hg : s.gapTicks = 0)
    (hr : LineAtRest s) (hm : MemoryOk s) (hl : LenOk s) (hi : ProgressOk s) (hf : FetchOk s) (hw : WindowOk s) :
    EngineInv s where
  legal := legal_iff.2 (.inr (.inl ⟨hs, hp, hr.half, hr.pulse, hg⟩))
  memory := hm
  len := hl
  progress := hi
  fetch := hf
  line := line_eq_expectedLine hr
  window := hw

theorem inv_of_inWindow (hs : s.session = .sending) (hp : s.bitPhase = .sending) (hg : s.gapTicks = 0)
    (hc : s.pulseTicks < threshold s.currentBit s.half) (hm : MemoryOk s) (hl : LenOk s)
    (hi : s.bitIndex < s.activeBitCount) (hf : s.currentBit = bufBit Config.params s s.bitIndex)
    (hline : s.line = expectedLine s)
    (hw : 0 < passesDone s → s.window = (windowLevels s.currentBit).take (passesDone s)) : EngineInv s where
  legal := legal_iff.2 (.inr (.inr (.inl ⟨hs, hp, hc, hg⟩)))
  memory := hm
  len := hl
  progress := by simpa [ProgressOk, hs, hp] using hi
  fetch := by simpa [FetchOk, hs, hp] using hf
  line := hline
  window := by simpa [WindowOk, hs, hp] using hw

/-- A window whose first pass is due: the line rests, and no level has been driven in it. -/
theorem inv_of_window_due (hs : s.session = .sending) (hp : s.bitPhase = .sending) (hg : s.gapTicks = 0)
    (hr : LineAtRest s) (hm : MemoryOk s) (hl : LenOk s) (hi : s.bitIndex < s.activeBitCount)
    (hf : s.currentBit = bufBit Config.params s s.bitIndex) : EngineInv s :=
  inv_of_inWindow hs hp hg (hr.pulse ▸ threshold_pos _ _) hm hl hi hf (line_eq_expectedLine hr)
    (by simp [passesDone, hr.half, hr.pulse])

theorem inv_of_resetGap (hs : s.session = .resetGap) (hp : s.bitPhase = .idle)
    (hg : s.gapTicks < Config.params.resetTicks) (hr : LineAtRest s) (hm : MemoryOk s) (hl : LenOk s)
    (hi : s.bitIndex = s.activeBitCount) : EngineInv s where
  legal := legal_iff.2 (.inr (.inr (.inr ⟨hs, hp, hr.half, hr.pulse, hg⟩)))
  memory := hm
  len := hl
  progress := by simpa [ProgressOk, hs] using hi
  fetch := by simp [FetchOk, hs]
  line := line_eq_expectedLine hr
  window := by simp [WindowOk, hs]

end Rows

/-! ## The passes of a window, counted -/

section Passes

variable {P : Params} {s t : State}

theorem passesDone_lt_ten (hc : s.pulseTicks < threshold s.currentBit s.half) : passesDone s < 10 := by
  have hT := threshold_high_add_low s.currentBit
  unfold passesDone
  split <;> rename_i hh <;> rw [hh] at hc <;> omega

theorem passesDone_pos (h : ¬ (s.half = .high ∧ s.pulseTicks = 0)) : 0 < passesDone s := by
  have hT := threshold_pos s.currentBit .high
  unfold passesDone
  split <;> rename_i hh
  · exact Nat.pos_of_ne_zero fun hc => h ⟨hh, hc⟩
  · omega

/-- The half a pass falls in gives the level the symbol has there. -/
theorem halfLevel_eq_windowLevel (hc : s.pulseTicks < threshold s.currentBit s.half) :
    halfLevel s.half = windowLevel s.currentBit (passesDone s) := by
  unfold windowLevel passesDone
  cases hh : s.half
  · exact (if_pos (by rwa [hh] at hc)).symm
  · exact (if_neg (by simp)).symm

/-- A pass drives the next level of the symbol. -/
theorem extendWindow_eq_take (hc : s.pulseTicks < threshold s.currentBit s.half)
    (hw : 0 < passesDone s → s.window = (windowLevels s.currentBit).take (passesDone s)) :
    extendWindow s (halfLevel s.half) = (windowLevels s.currentBit).take (passesDone s + 1) := by
  rw [take_succ_windowLevels _ _ (passesDone_lt_ten hc), extendWindow, halfLevel_eq_windowLevel hc]
  split <;> rename_i hfirst
  · simp [passesDone, hfirst]
  · rw [hw (passesDone_pos hfirst)]

/-- A `T_SHAPE` pass counts one more of the window's passes, or closes the window as its tenth. -/
theorem tShape_counts (h : tShape P s = .next t) :
    t.session = .sending ∧
      (t.bitPhase = .sending ∧ passesDone t = passesDone s + 1 ∧ passesDone t < 10 ∨
        t.bitPhase = .nextBit ∧ passesDone s = 9) := by
  have hT := threshold_high_add_low s.currentBit
  obtain ⟨hl, ⟨hs, hp⟩, ⟨hne, rfl⟩ | ⟨hc, hh, rfl⟩ | ⟨hc, hh, rfl⟩⟩ := tShape_eq_next.1 h
  · refine ⟨hs, .inl ⟨hp, ?_, passesDone_lt_ten ?_⟩⟩
    · cases hh : s.half <;> simp [passesDone, shapeDrive, hh, Nat.add_assoc]
    · exact Nat.lt_of_le_of_ne (pulseTicks_lt_threshold hl hp) hne
  · rw [hh] at hc
    exact ⟨hs, .inl ⟨hp, by simp [passesDone, shapeDrive, hh, hc], passesDone_lt_ten (threshold_pos _ _)⟩⟩
  · rw [hh] at hc
    refine ⟨hs, .inr ⟨rfl, ?_⟩⟩
    simp only [passesDone, hh]
    omega

/-- The passes left in a window close it. -/
theorem shapePasses_closes_window {n : Nat} (hn : passesDone s + (n + 1) = 10)
    (h : shapePasses P (n + 1) s = .next t) : t.session = .sending ∧ t.bitPhase = .nextBit := by
  induction n generalizing s with
  | zero =>
    obtain ⟨u, hu, h⟩ := shapePasses_succ_eq_next.1 h
    cases h
    obtain ⟨hs, ⟨-, hc, hlt⟩ | ⟨hp, -⟩⟩ := tShape_counts hu
    · omega
    · exact ⟨hs, hp⟩
  | succ n ih =>
    obtain ⟨u, hu, h⟩ := shapePasses_succ_eq_next.1 h
    obtain ⟨-, ⟨-, hc, -⟩ | ⟨-, hc⟩⟩ := tShape_counts hu
    · exact ih (by omega) h
    · omega

end Passes

/-! ## Every operation keeps the invariant -/

section Keeps

variable {s t : State}

theorem inv_resetState (s : State) : EngineInv (resetState s) :=
  inv_of_quiescent ⟨rfl, rfl, rfl, rfl, rfl, rfl⟩ ⟨Memory.wf_reset _, by simp [State.reset]⟩ (Nat.zero_le _)

/-- What a `RESET` that answers a next state did. -/
theorem execReset_eq_next : execReset s = .next t ↔ s.booted = false ∧ t = resetState s := by
  unfold execReset
  split <;> simp_all [eq_comm (a := t)]

theorem inv_execReset (ht : execReset s = .next t) : EngineInv t := by
  obtain ⟨-, rfl⟩ := execReset_eq_next.1 ht
  exact inv_resetState s

theorem inv_fetchRest (h : EngineInv s) : EngineInv (fetchRest s) := by
  rw [fetchRest_eq]
  exact ⟨h.legal, h.memory, h.len, h.progress, h.fetch, h.line, h.window⟩

theorem inv_execPoll (h : EngineInv s) (ht : execPoll s = .next t) : EngineInv t := by
  cases ht
  exact ⟨h.legal, h.memory, h.len, h.progress, h.fetch, h.line, h.window⟩

theorem memoryOk_writeByte (h : MemoryOk s) {i : Nat} (hi : i < Config.params.bufCap) (v : Byte) :
    MemoryOk (writeByte Config.params i v s) := by
  refine ⟨Memory.wf_write _ h.1 i v, fun c hc => ?_⟩
  obtain rfl | hc := Memory.mem_of_mem_write _ hc
  · exact hi
  · exact h.2 c hc

theorem inv_bufwr (h : EngineInv s) {i : Nat} {v : Byte} (ht : bufwr Config.params i v s = .next t) :
    EngineInv t := by
  obtain ⟨hi, hs, rfl⟩ := bufwr_eq_next.1 ht
  have hq := quiescent_of_inv h hs
  exact inv_of_quiescent hq (memoryOk_writeByte h.memory hi v) h.len

theorem inv_bufwrAll {bs : List Byte} {i : Nat} (h : EngineInv s)
    (ht : bufwrAll Config.params i bs s = .next t) : EngineInv t := by
  induction bs generalizing i s with
  | nil =>
    cases ht
    exact h
  | cons b bs ih =>
    obtain ⟨u, hu, ht⟩ := andThen_eq_next.1 ht
    exact ih (inv_bufwr h hu) ht

theorem inv_setlen (h : EngineInv s) {n : Nat} (ht : setlen Config.params n s = .next t) : EngineInv t := by
  obtain ⟨hn, hs, rfl⟩ := setlen_eq_next.1 ht
  have hq := quiescent_of_inv h hs
  exact inv_of_quiescent hq h.memory hn

theorem inv_execStart (h : EngineInv s) (ht : execStart s = .next t) : EngineInv t := by
  obtain ⟨hs, rfl⟩ := execStart_eq_next.1 ht
  obtain ⟨-, hp, hh, hc, hg, hlow⟩ := quiescent_of_inv h hs
  refine inv_of_between rfl (by simp [hp]) hg ⟨hh, hc, hlow⟩ h.memory h.len ?_ ?_ ?_
  · simp [ProgressOk, hp]
  · simp [FetchOk, hp]
  · simp [WindowOk, hp]

theorem inv_arm (h : EngineInv s) {n : Nat} {colors : List Byte} (ht : arm Config.params n colors s = .next t) :
    EngineInv t := by
  unfold arm at ht
  split at ht
  · simp at ht
  · obtain ⟨v, hv, ht⟩ := andThen_eq_next.1 ht
    obtain ⟨u, hu, hv⟩ := andThen_eq_next.1 hv
    exact inv_execStart (inv_setlen (inv_bufwrAll h hu) hv) ht

theorem inv_tIdle (h : EngineInv s) (ht : tIdle Config.params s = .next t) : EngineInv t := by
  obtain ⟨-, -, rfl⟩ := tIdle_eq_next.1 ht
  exact ⟨h.legal, h.memory, h.len, h.progress, h.fetch, h.line, h.window⟩

theorem inv_tEntry (h : EngineInv s) (ht : tEntry Config.params s = .next t) : EngineInv t := by
  obtain ⟨hl, ⟨hs, hp⟩, rfl⟩ := tEntry_eq_next.1 ht
  have hr := lineAtRest_of_inv h (by simp [hp])
  have hg := gapTicks_eq_zero_of_sending hl hs
  refine inv_of_between hs (by simp) hg ⟨hr.half, rfl, hr.low⟩ h.memory h.len ?_ ?_ ?_
  · simp [ProgressOk, hs]
  · simp only [FetchOk, beginPass_session, hs]
    rfl
  · simp [WindowOk, hs]

theorem inv_tStartbit (h : EngineInv s) (ht : tStartbit Config.params s = .next t) : EngineInv t := by
  obtain ⟨hl, ⟨hs, hp⟩, hcases⟩ := tStartbit_eq_next.1 ht
  have hr := lineAtRest_of_inv h (by simp [hp])
  have hg := gapTicks_eq_zero_of_sending hl hs
  have h0 : s.bitIndex = 0 := by simpa [ProgressOk, hs, hp] using h.progress
  obtain ⟨hb, rfl⟩ | ⟨hb, -, rfl⟩ := hcases
  · refine inv_of_between hs (by simp) hg ⟨hr.half, hr.pulse, hr.low⟩ h.memory h.len ?_ ?_ ?_
    · simp [ProgressOk, hs, hb]
    · simp [FetchOk, hs, h0]
    · simp [WindowOk, hs, h0]
  · have hlt : s.bitIndex < s.activeBitCount := by omega
    refine inv_of_window_due hs rfl hg ⟨hr.half, hr.pulse, hr.low⟩ h.memory h.len hlt ?_
    show bufBitZero Config.params s s.bitIndex = bufBit Config.params s s.bitIndex
    rw [h0]
    rfl

theorem inv_tShape (h : EngineInv s) (ht : tShape Config.params s = .next t) : EngineInv t := by
  obtain ⟨hl, ⟨hs, hp⟩, hcases⟩ := tShape_eq_next.1 ht
  have hg := gapTicks_eq_zero_of_sending hl hs
  have hc := pulseTicks_lt_threshold hl hp
  have hi : s.bitIndex < s.activeBitCount := by simpa [ProgressOk, hs, hp] using h.progress
  have hf : s.currentBit = bufBit Config.params s s.bitIndex := by simpa [FetchOk, hs, hp] using h.fetch
  have hw := extendWindow_eq_take hc (by simpa [WindowOk, hs, hp] using h.window)
  obtain ⟨-, hcount⟩ := tShape_counts ht
  obtain ⟨hne, rfl⟩ | ⟨heq, hh, rfl⟩ | ⟨heq, hh, rfl⟩ := hcases
  · obtain ⟨-, hn, -⟩ := hcount.resolve_right (by simp [shapeDrive, hp])
    refine inv_of_inWindow hs hp hg (Nat.lt_of_le_of_ne hc hne) h.memory h.len hi hf ?_ fun _ => hn ▸ hw
    cases hh : s.half <;> simp [expectedLine, shapeDrive, hs, hp, hh, halfLevel]
  · obtain ⟨-, hn, -⟩ := hcount.resolve_right (by simp [shapeDrive, hp])
    refine inv_of_inWindow hs hp hg (threshold_pos _ _) h.memory h.len hi hf ?_ fun _ => hn ▸ hw
    simp [expectedLine, shapeDrive, hs, hp, hh, halfLevel]
  · obtain ⟨-, hn⟩ := hcount.resolve_left (by simp)
    refine inv_of_between hs (by simp) hg ⟨rfl, rfl, by simp [shapeDrive, hh, halfLevel]⟩ h.memory h.len ?_ ?_ ?_
    · simpa [ProgressOk, shapeDrive, hs] using hi
    · simp only [FetchOk, shapeDrive, drive_session, beginPass_session, hs]
      exact fun _ => hf
    · have hall : (windowLevels s.currentBit).take (9 + 1) = windowLevels s.currentBit := by
        cases s.currentBit <;> rfl
      rw [hn, hall] at hw
      simp [WindowOk, shapeDrive, hs, hw]

theorem inv_tNextbit (h : EngineInv s) (ht : tNextbit Config.params s = .next t) : EngineInv t := by
  obtain ⟨hl, ⟨hs, hp⟩, hcases⟩ := tNextbit_eq_next.1 ht
  have hr := lineAtRest_of_inv h (by simp [hp])
  have hg := gapTicks_eq_zero_of_sending hl hs
  have hle : s.bitIndex ≤ s.activeBitCount := by simpa [ProgressOk, hs, hp] using h.progress
  obtain ⟨hb, rfl⟩ | ⟨hb, -, rfl⟩ := hcases
  · exact inv_of_resetGap rfl rfl (hg.trans_lt (resetTicks_pos _)) ⟨hr.half, hr.pulse, hr.low⟩ h.memory h.len hb
  · exact inv_of_window_due hs rfl hg ⟨hr.half, hr.pulse, hr.low⟩ h.memory h.len (Nat.lt_of_le_of_ne hle hb) rfl

theorem inv_tGap (h : EngineInv s) (ht : tGap Config.params s = .next t) : EngineInv t := by
  obtain ⟨hl, hs, hcases⟩ := tGap_eq_next.1 ht
  have hp := bitPhase_idle_of_not_sending hl (by simp [hs])
  have hr := lineAtRest_of_inv h (by simp [hp])
  obtain ⟨-, rfl⟩ | ⟨hne, rfl⟩ := hcases
  · exact inv_of_quiescent ⟨rfl, hp, hr.half, hr.pulse, rfl, rfl⟩ h.memory h.len
  · have hg : s.gapTicks < Config.params.resetTicks := by
      simpa [legal_iff, hs, hp, hr.half, hr.pulse] using hl
    exact inv_of_resetGap hs hp (Nat.lt_of_le_of_ne hg hne) ⟨hr.half, hr.pulse, rfl⟩ h.memory h.len
      (by simpa [ProgressOk, hs] using h.progress)

theorem inv_shapeWindow (h : EngineInv s) {bit : FrameBit} (ht : shapeWindow Config.params bit s = .next t) :
    EngineInv t :=
  shapePasses_induction (fun _ _ => inv_tShape) 10 s t h (shapeWindow_eq_next.1 ht).2

theorem inv_exec {i : Instr} (h : EngineInv s) (ht : exec i s = .next t) : EngineInv t := by
  cases i with
  | reset => exact inv_execReset ht
  | poll => exact inv_execPoll h ht
  | bufwr i v => exact inv_bufwr h ht
  | setlen n => exact inv_setlen h ht
  | start => exact inv_execStart h ht
  | arm n colors => exact inv_arm h ht
  | tIdle => exact inv_tIdle h ht
  | tEntry => exact inv_tEntry h ht
  | tStartbit => exact inv_tStartbit h ht
  | tShape => exact inv_tShape h ht
  | tNextbit => exact inv_tNextbit h ht
  | tGap => exact inv_tGap h ht
  | sym0 => exact inv_shapeWindow h ht
  | sym1 => exact inv_shapeWindow h ht

end Keeps

/-- Settles O43: what reset leaves is quiescent, with nothing in the buffer and the length 0. -/
theorem resetEstablishesTheInvariant : Obligations.ResetEstablishesTheInvariant :=
  ⟨inv_resetState State.reset, fun _ _ _ h => inv_execReset h⟩

/-- Settles O44: a step is an operation that keeps the invariant, on the state whose turn is spent. -/
theorem stepKeepsTheInvariant : Obligations.StepKeepsTheInvariant := by
  intro s t h hst
  obtain ⟨-, i, -, -, ht⟩ := step_eq_next.1 hst
  exact inv_exec (inv_fetchRest h) ht

/-! ## The moves of `(session, bit_phase)` (R97) -/

section Moves

variable {P : Params} {s t : State}

theorem bufwr_phases {i : Nat} {v : Byte} (h : bufwr P i v s = .next t) :
    t.session = s.session ∧ t.bitPhase = s.bitPhase := by
  obtain ⟨-, -, rfl⟩ := bufwr_eq_next.1 h
  exact ⟨rfl, rfl⟩

theorem setlen_phases {n : Nat} (h : setlen P n s = .next t) :
    t.session = s.session ∧ t.bitPhase = s.bitPhase := by
  obtain ⟨-, -, rfl⟩ := setlen_eq_next.1 h
  exact ⟨rfl, rfl⟩

theorem execStart_phases (hl : legal P s = true) (h : execStart s = .next t) :
    s.session = .idle ∧ s.bitPhase = .idle ∧ t.session = .sending ∧ t.bitPhase = .idle := by
  obtain ⟨hs, rfl⟩ := execStart_eq_next.1 h
  have hp := bitPhase_idle_of_not_sending hl (by simp [hs])
  exact ⟨hs, hp, rfl, hp⟩

theorem arm_phases {n : Nat} {colors : List Byte} (hl : legal P s = true) (h : arm P n colors s = .next t) :
    s.session = .idle ∧ s.bitPhase = .idle ∧ t.session = .sending ∧ t.bitPhase = .idle := by
  obtain ⟨-, -, hs, u, -, rfl⟩ := arm_eq_next h
  have hp := bitPhase_idle_of_not_sending hl (by simp [hs])
  exact ⟨hs, hp, rfl, hp⟩

theorem tIdle_phases (h : tIdle P s = .next t) :
    s.session = .idle ∧ s.bitPhase = .idle ∧ t.session = .idle ∧ t.bitPhase = .idle := by
  obtain ⟨hl, hs, rfl⟩ := tIdle_eq_next.1 h
  have hp := bitPhase_idle_of_not_sending hl (by simp [hs])
  exact ⟨hs, hp, hs, hp⟩

theorem tEntry_phases (h : tEntry P s = .next t) :
    s.session = .sending ∧ s.bitPhase = .idle ∧ t.session = .sending ∧ t.bitPhase = .startBit := by
  obtain ⟨-, ⟨hs, hp⟩, rfl⟩ := tEntry_eq_next.1 h
  exact ⟨hs, hp, hs, rfl⟩

theorem tStartbit_phases (h : tStartbit P s = .next t) :
    s.session = .sending ∧ s.bitPhase = .startBit ∧ t.session = .sending ∧
      t.bitPhase = if s.bitIndex = s.activeBitCount then .nextBit else .sending := by
  obtain ⟨-, ⟨hs, hp⟩, ⟨hb, rfl⟩ | ⟨hb, -, rfl⟩⟩ := tStartbit_eq_next.1 h
  · exact ⟨hs, hp, hs, (if_pos hb).symm⟩
  · exact ⟨hs, hp, hs, (if_neg hb).symm⟩

theorem tShape_phases (h : tShape P s = .next t) :
    s.session = .sending ∧ s.bitPhase = .sending ∧ t.session = .sending ∧
      t.bitPhase =
        if s.half = .low ∧ s.pulseTicks + 1 = threshold s.currentBit .low then .nextBit else .sending := by
  obtain ⟨-, ⟨hs, hp⟩, ⟨hne, rfl⟩ | ⟨-, hh, rfl⟩ | ⟨hc, hh, rfl⟩⟩ := tShape_eq_next.1 h
  · have hn : ¬ (s.half = .low ∧ s.pulseTicks + 1 = threshold s.currentBit .low) := fun ⟨hh, hc⟩ =>
      hne (by rw [hh, hc])
    exact ⟨hs, hp, hs, hp.trans (if_neg hn).symm⟩
  · have hn : ¬ (s.half = .low ∧ s.pulseTicks + 1 = threshold s.currentBit .low) := by simp [hh]
    exact ⟨hs, hp, hs, hp.trans (if_neg hn).symm⟩
  · rw [hh] at hc
    exact ⟨hs, hp, hs, (if_pos ⟨hh, hc⟩).symm⟩

theorem tNextbit_phases (h : tNextbit P s = .next t) :
    s.session = .sending ∧ s.bitPhase = .nextBit ∧
      (s.bitIndex = s.activeBitCount → t.session = .resetGap ∧ t.bitPhase = .idle) ∧
      (s.bitIndex ≠ s.activeBitCount → t.session = .sending ∧ t.bitPhase = .sending) := by
  obtain ⟨-, ⟨hs, hp⟩, ⟨hb, rfl⟩ | ⟨hb, -, rfl⟩⟩ := tNextbit_eq_next.1 h
  · exact ⟨hs, hp, fun _ => ⟨rfl, rfl⟩, fun hn => absurd hb hn⟩
  · exact ⟨hs, hp, fun hn => absurd hn hb, fun _ => ⟨hs, rfl⟩⟩

theorem tGap_phases (h : tGap P s = .next t) :
    s.session = .resetGap ∧ s.bitPhase = .idle ∧ t.bitPhase = .idle ∧
      t.session = if s.gapTicks + 1 = P.resetTicks then .idle else .resetGap := by
  obtain ⟨hl, hs, hcases⟩ := tGap_eq_next.1 h
  have hp := bitPhase_idle_of_not_sending hl (by simp [hs])
  obtain ⟨hg, rfl⟩ | ⟨hg, rfl⟩ := hcases
  · exact ⟨hs, hp, hp, (if_pos hg).symm⟩
  · exact ⟨hs, hp, hp, hs.trans (if_neg hg).symm⟩

/-- A symbol is the ten passes that end a window (log 15). -/
theorem shapeWindow_phases {bit : FrameBit} (h : shapeWindow P bit s = .next t) :
    s.session = .sending ∧ s.bitPhase = .sending ∧ t.session = .sending ∧ t.bitPhase = .nextBit := by
  obtain ⟨⟨hs, hp, hh, hc, -⟩, h⟩ := shapeWindow_eq_next.1 h
  exact ⟨hs, hp, shapePasses_closes_window (by simp [passesDone, hh, hc]) h⟩

end Moves

/-- Settles O35: one row of R97, or none, for each operation. -/
theorem phasesMoveOnlyByTheTable : Obligations.PhasesMoveOnlyByTheTable := by
  intro i s t hl h
  cases i with
  | reset => exact (execReset_eq_next.1 h).1
  | poll => cases h; exact ⟨rfl, rfl⟩
  | bufwr i v => exact bufwr_phases h
  | setlen n => exact setlen_phases h
  | start => exact execStart_phases hl h
  | arm n colors => exact arm_phases hl h
  | tIdle => exact tIdle_phases h
  | tEntry => exact tEntry_phases h
  | tStartbit => exact tStartbit_phases h
  | tShape => exact tShape_phases h
  | tNextbit => exact tNextbit_phases h
  | tGap => exact tGap_phases h
  | sym0 => exact shapeWindow_phases h
  | sym1 => exact shapeWindow_phases h

/-! ## What a step can do, by whose turn it is (R48) -/

section Steps

variable {s t : State}

theorem decodeSymbol_eq_ok {levels : BitVec 10} {i : Instr} (h : decodeSymbol levels = .ok i) :
    i = .sym0 ∨ i = .sym1 := by
  unfold decodeSymbol at h
  split at h
  · cases h; exact .inl rfl
  · split at h
    · cases h; exact .inr rfl
    · cases h

/-- A step is a tick's arm in a tick's turn, a host-port operation in the foreground context's, the first
`RESET`, or a line symbol. -/
theorem step_cases (h : step s = .next t) :
    (TickTurn s ∧ exec (tickArm (fetchRest s)) (fetchRest s) = .next t) ∨
    (ForegroundTurn s ∧ ∃ w, exec (decodeHost w) (fetchRest s) = .next t) ∨
    (s.booted = false ∧ t = resetState (fetchRest s)) ∨
    ∃ bit, shapeWindow Config.params bit (fetchRest s) = .next t := by
  obtain ⟨-, i, hd, -, h⟩ := step_eq_next.1 h
  obtain ⟨hturn, hw⟩ | ⟨hturn, hw⟩ | ⟨-, hw⟩ | ⟨levels, -, hw⟩ := fetchWord_cases s <;> rw [hw] at hd
  · rw [← fetchRest_session, ← fetchRest_bitPhase, decode_selector_eq_tickArm] at hd
    cases hd
    exact .inl ⟨hturn, h⟩
  · cases hd
    exact .inr (.inl ⟨hturn, _, h⟩)
  · cases hd
    exact .inr (.inr (.inl (by simpa using execReset_eq_next.1 h)))
  · obtain rfl | rfl := decodeSymbol_eq_ok hd
    · exact .inr (.inr (.inr ⟨.zero, h⟩))
    · exact .inr (.inr (.inr ⟨.one, h⟩))

/-- What a host-port word that is answered did: `POLL`, `BUFWR`, `SETLEN` or `START`. -/
theorem exec_decodeHost_cases {w : HostWord} (h : exec (decodeHost w) s = .next t) :
    t = { s with hRdata := s.session.code } ∨
    (s.session = .idle ∧ t = { s with buf := t.buf }) ∨
    (s.session = .idle ∧ t = { s with activeBitCount := t.activeBitCount }) ∨
    (s.session = .idle ∧ t = { s with session := .sending }) := by
  obtain hi | ⟨i, v, hi⟩ | ⟨n, hi⟩ | hi := decodeHost_cases w <;> rw [hi] at h
  · cases h
    exact .inl rfl
  · obtain ⟨-, hs, rfl⟩ := bufwr_eq_next.1 h
    exact .inr (.inl ⟨hs, rfl⟩)
  · obtain ⟨-, hs, rfl⟩ := setlen_eq_next.1 h
    exact .inr (.inr (.inl ⟨hs, rfl⟩))
  · exact .inr (.inr (.inr (execStart_eq_next.1 h)))

theorem exec_tickArm_session (h : exec (tickArm s) s = .next t) :
    t.session = s.session ∨ (s.session = .sending ∧ t.session = .resetGap) ∨
      (s.session = .resetGap ∧ t.session = .idle) := by
  unfold tickArm at h
  split at h
  · obtain ⟨hs, -, ht, -⟩ := tIdle_phases h
    exact .inl (ht.trans hs.symm)
  · obtain ⟨hs, -, ht, -⟩ := tEntry_phases h
    exact .inl (ht.trans hs.symm)
  · obtain ⟨hs, -, ht, -⟩ := tStartbit_phases h
    exact .inl (ht.trans hs.symm)
  · obtain ⟨hs, -, ht, -⟩ := tShape_phases h
    exact .inl (ht.trans hs.symm)
  · obtain ⟨hs, -, hgap, hnext⟩ := tNextbit_phases h
    by_cases hb : s.bitIndex = s.activeBitCount
    · exact .inr (.inl ⟨hs, (hgap hb).1⟩)
    · exact .inl ((hnext hb).1.trans hs.symm)
  · obtain ⟨hs, -, -, ht⟩ := tGap_phases h
    split at ht
    · exact .inr (.inr ⟨hs, ht⟩)
    · exact .inl (ht.trans hs.symm)

theorem exec_decodeHost_session {w : HostWord} (h : exec (decodeHost w) s = .next t) :
    t.session = s.session ∨ (s.session = .idle ∧ t.session = .sending) := by
  obtain rfl | ⟨-, ht⟩ | ⟨-, ht⟩ | ⟨hs, rfl⟩ := exec_decodeHost_cases h
  · exact .inl rfl
  · exact .inl (by rw [ht])
  · exact .inl (by rw [ht])
  · exact .inr ⟨hs, rfl⟩

theorem shapeWindow_session {P : Params} {bit : FrameBit} (h : shapeWindow P bit s = .next t) :
    t.session = s.session := by
  obtain ⟨hs, -, ht, -⟩ := shapeWindow_phases h
  exact ht.trans hs.symm

/-- Host-port operations leave the mark and `booted`. -/
theorem exec_decodeHost_frame {w : HostWord} (h : exec (decodeHost w) s = .next t) :
    t.violation = s.violation ∧ t.booted = s.booted := by
  obtain ht | ⟨-, ht⟩ | ⟨-, ht⟩ | ⟨-, ht⟩ := exec_decodeHost_cases h <;> rw [ht] <;> exact ⟨rfl, rfl⟩

theorem tShape_frame {P : Params} (h : tShape P s = .next t) :
    t.violation = s.violation ∧ t.booted = s.booted := by
  obtain ⟨-, -, ⟨-, rfl⟩ | ⟨-, -, rfl⟩ | ⟨-, -, rfl⟩⟩ := tShape_eq_next.1 h <;> exact ⟨rfl, rfl⟩

theorem shapeWindow_frame {P : Params} {bit : FrameBit} (h : shapeWindow P bit s = .next t) :
    t.violation = s.violation ∧ t.booted = s.booted :=
  shapePasses_induction (I := fun u => u.violation = s.violation ∧ u.booted = s.booted)
    (fun _ _ hu hv => ⟨(tShape_frame hv).1.trans hu.1, (tShape_frame hv).2.trans hu.2⟩) 10 s t ⟨rfl, rfl⟩
    (shapeWindow_eq_next.1 h).2

/-- The machine stays able to step. -/
theorem running_of_step (hr : Running s) (h : step s = .next t) : Running t := by
  have hkeep : t.violation = (fetchRest s).violation ∧ t.booted = (fetchRest s).booted := by
    obtain ⟨-, h⟩ | ⟨-, w, h⟩ | ⟨hb, -⟩ | ⟨bit, h⟩ := step_cases h
    · obtain ⟨hv, hb, -⟩ := exec_tickArm_frame h
      exact ⟨hv, hb⟩
    · exact exec_decodeHost_frame h
    · simp [hr.2] at hb
    · exact shapeWindow_frame h
  simpa [Running, NoViolation, hkeep] using hr

end Steps

/-- Settles O36: only a tick's arm and a host-port operation move `session`, each in its own context's turn. -/
theorem sessionMovesInThreeWaysOnly : Obligations.SessionMovesInThreeWaysOnly := by
  intro s t hb h
  rw [← fetchRest_session s]
  obtain ⟨hturn, h⟩ | ⟨hturn, w, h⟩ | ⟨hb', -⟩ | ⟨bit, h⟩ := step_cases h
  · obtain hsame | hmove | hmove := exec_tickArm_session h
    · exact .inl hsame
    · exact .inr (.inr (.inl ⟨hturn, hmove⟩))
    · exact .inr (.inr (.inr ⟨hturn, hmove⟩))
  · exact (exec_decodeHost_session h).imp_right fun hmove => .inl ⟨hturn, hmove⟩
  · simp [hb] at hb'
  · exact .inl (shapeWindow_session h)

/-! ## Runs from reset -/

/-- The induction over an execution: it begins in a state of the invariant, and steps keep it. -/
theorem running_and_inv_of_reachable {s : State} (h : Reachable s) : Running s ∧ EngineInv s := by
  induction h with
  | start program schedule =>
    exact ⟨⟨rfl, rfl⟩, inv_resetState { State.reset with program := program, schedule := schedule }⟩
  | step _ hst ih => exact ⟨running_of_step ih.1 hst, stepKeepsTheInvariant _ _ ih.2 hst⟩

/-- Settles O46: the invariant holds in every run, and makes Idle quiescent. -/
theorem idleIsQuiescentInEveryRun : Obligations.IdleIsQuiescentInEveryRun := by
  intro s h
  obtain ⟨hr, hi⟩ := running_and_inv_of_reachable h
  exact ⟨hr, hi.legal, quiescent_of_inv hi⟩

/-- Settles O56: all premises but the host's silence hold at every Idle point of a run. -/
theorem reachableStartsMeetThePremises : Obligations.ReachableStartsMeetThePremises := by
  intro q h hs
  obtain ⟨hr, hi⟩ := running_and_inv_of_reachable h
  have hstart : exec .start q = .next { q with session := .sending } := execStart_eq_next.2 ⟨hs, rfl⟩
  exact ⟨_, hstart, rfl, fun hquiet => ⟨hr, quiescent_of_inv hi hs, hi.len, hstart, hquiet⟩⟩

end Sys2Proof.Proofs

/-!
SUPPORT. The proofs of the family `20_memory.md`: one step and the turn it spends (R47, R48), the bytes, the length
and the frame bits that `ARM` leaves (R40 to R42), `ARM` as its words among ticks (R71), what the engine leaves of the
frame (R44, R51), and the frame on the wire (R41, R63).
-/

namespace Sys2Proof.Proofs

open Sys2Proof.Machine Sys2Proof.Safety

/-! ## A step and the turn it spends -/

theorem fetchRest_program (s : State) :
    (fetchRest s).program = if ForegroundTurn s then s.program.tail else s.program := by
  unfold fetchRest
  split <;> simp_all [ForegroundTurn]

/-- Settles O5: the word decodes and may run, so the step is its operation, once the turn is spent. -/
theorem stepRunsTheDecodedInstruction : Obligations.StepRunsTheDecodedInstruction := by
  intro s i hv hd hb
  have hmay : mayRun i s = true := by simpa [mayRun] using hb
  refine ⟨?_, by rw [fetchRest_eq, fetchRest_schedule, fetchRest_program]⟩
  simp only [step, hv, hd, if_pos hmay]

/-! ## The fetch of a frame bit -/

/-- Frame bit `k` is bit `k % 8` of byte `k / 8`, bit 0 the least significant (R41). -/
theorem bufBit_eq (P : Params) (s : State) (k : Nat) :
    bufBit P s k = if (readByte P s (k / 8)).getLsbD (k % 8) then .one else .zero :=
  bitOf_eq _ _

theorem fetching_of_le {P : Params} {k : Nat} (h : bufBits P ≤ k) (s : State) (o : Out) :
    fetching P k s o = raise (.lenRange k) s :=
  if_neg (Nat.not_lt.2 h)

/-- Settles O26: the three ways through the arm. -/
theorem nextbitTickTestsThenFetches : Obligations.NextbitTickTestsThenFetches := by
  intro s hl hs hp
  refine ⟨fun hb => ?_, fun hb hk => ?_, fun hb hk => ?_⟩
  · exact tNextbit_eq_next.2 ⟨hl, ⟨hs, hp⟩, .inl ⟨hb, rfl⟩⟩
  · rw [← bufBit_eq]
    exact tNextbit_eq_next.2 ⟨hl, ⟨hs, hp⟩, .inr ⟨hb, hk, rfl⟩⟩
  · show tNextbit Config.params s = _
    rw [tNextbit, runPass_of_legal hl ⟨hs, hp⟩]
    exact (if_neg hb).trans (fetching_of_le hk _ _)

/-! ## What `ARM` writes (R42, R71, R83) -/

section Arm

variable {P : Params} {n : Nat} {colors : List Byte} {s t : State}

/-- `ARM` with fitting arguments is its primitives in order. -/
theorem arm_of_fitting (hn : n ≤ P.maxLeds) (hc : colors.length = armBytes n) (s : State) :
    arm P n colors s = andThen (andThen (bufwrAll P 0 colors s) (setlen P (armBits n))) execStart :=
  if_neg (by omega)

/-- `ARM` with fitting arguments answers from Idle. -/
theorem arm_answers (hn : n ≤ P.maxLeds) (hc : colors.length = armBytes n) (hs : s.session = .idle) :
    ∃ t, arm P n colors s = .next t := by
  have hcap := armBytes_le_bufCap hn
  obtain ⟨u, hu, -⟩ := bufwrAll_spec P colors 0 s (by omega) hs
  have hus : u.session = .idle := by rw [bufwrAll_frame hu]; exact hs
  have hlen := setlen_eq_next.2 ⟨armBits_le_bufBits hn, hus, rfl⟩
  rw [arm_of_fitting hn hc, hu, andThen_next, hlen, andThen_next]
  exact ⟨_, execStart_eq_next.2 ⟨hus, rfl⟩⟩

/-- After `ARM` the first bytes are the colours, and every other byte is as before. -/
theorem readByte_of_arm (h : arm P n colors s = .next t) (a : Nat) :
    readByte P t a = if h : a < colors.length then colors[a] else readByte P s a := by
  obtain ⟨hn, hc, hs, u, hu, rfl⟩ := arm_eq_next h
  have hcap := armBytes_le_bufCap hn
  obtain ⟨v, hv, hr⟩ := bufwrAll_spec P colors 0 s (by omega) hs
  obtain rfl : u = v := by simpa [hu] using hv
  show readByte P u a = _
  simpa using hr a

end Arm

/-- Settles O17: `ARM` answers, writes what its primitives write, and its bytes are the colours. -/
theorem armCopiesSetsAndStarts : Obligations.ArmCopiesSetsAndStarts := by
  intro n colors s hn hc hs
  obtain ⟨t, ht⟩ := arm_answers hn hc hs
  obtain ⟨-, -, -, u, -, hu⟩ := arm_eq_next ht
  exact ⟨t, ht, by rw [hu]; rfl, readByte_of_arm ht⟩

/-- Settles O20: byte `k / 8` of the armed frame is colour `k / 8`. -/
theorem armedFrameIsTheBytesLowBitFirst : Obligations.ArmedFrameIsTheBytesLowBitFirst := by
  intro n colors s t k ht hk
  obtain ⟨-, hc, -, u, -, hu⟩ := arm_eq_next ht
  have hbyte : k / 8 < colors.length := by
    simp only [armBytes, Config.bytesPerLed] at hc
    omega
  refine ⟨by rw [hu]; exact hk, ?_⟩
  rw [bufBit_eq, readByte_of_arm ht, dif_pos hbyte, List.getD_eq_getElem _ _ hbyte]

/-! ## What the host port writes (R40, R86) -/

/-- `t` is `s` but for the items that the host port writes. -/
abbrev HostItemsOnly (s t : State) : Prop :=
  t = { s with
    session := t.session, activeBitCount := t.activeBitCount, buf := t.buf, hRdata := t.hRdata }

/-- The primitives of `ARM` (R71). -/
inductive HostWrite : Instr → Prop where
  | bufwr (i : Nat) (v : Byte) : HostWrite (.bufwr i v)
  | setlen (n : Nat) : HostWrite (.setlen n)
  | start : HostWrite .start

/-- `s` with another record of the last pass's drive, other words to present and other turns to come. -/
def withInputs (d : Option Level) (ws : List HostWord) (ts : List Turn) (s : State) : State :=
  { s with driven := d, program := ws, schedule := ts }

/-- A primitive that answers did so from Idle, wrote host items alone, and does the same whatever the inputs. -/
theorem exec_hostWrite {i : Instr} {s t : State} (hi : HostWrite i) (h : exec i s = .next t) :
    s.session = .idle ∧ HostItemsOnly s t ∧
      ∀ d ws ts, exec i (withInputs d ws ts s) = .next (withInputs d ws ts t) := by
  cases hi with
  | bufwr i v =>
    obtain ⟨hb, hs, rfl⟩ := bufwr_eq_next.1 h
    exact ⟨hs, rfl, fun d ws ts => bufwr_eq_next.2 ⟨hb, hs, rfl⟩⟩
  | setlen n =>
    obtain ⟨hb, hs, rfl⟩ := setlen_eq_next.1 h
    exact ⟨hs, rfl, fun d ws ts => setlen_eq_next.2 ⟨hb, hs, rfl⟩⟩
  | start =>
    obtain ⟨hs, rfl⟩ := execStart_eq_next.1 h
    exact ⟨hs, rfl, fun d ws ts => execStart_eq_next.2 ⟨hs, rfl⟩⟩

/-- Settles O21: each of the five operations writes host items alone. -/
theorem hostOperationsLeaveTheEngineAlone : Obligations.HostOperationsLeaveTheEngineAlone := by
  intro i s t hi h
  have ht : HostItemsOnly s t := by
    obtain rfl | ⟨a, v, rfl⟩ | ⟨n, rfl⟩ | rfl | ⟨n, colors, rfl⟩ := hi
    · cases h; rfl
    · obtain ⟨-, hitems, -⟩ := exec_hostWrite (.bufwr a v) h
      exact hitems
    · obtain ⟨-, hitems, -⟩ := exec_hostWrite (.setlen n) h
      exact hitems
    · obtain ⟨-, hitems, -⟩ := exec_hostWrite .start h
      exact hitems
    · obtain ⟨-, -, -, u, -, rfl⟩ := arm_eq_next h
      rfl
  rw [ht]
  exact ⟨rfl, rfl, rfl, rfl, rfl, rfl, rfl, rfl, rfl, rfl, rfl, rfl, rfl⟩

/-! ## `ARM` as its words among ticks (R47, R71, R91) -/

/-- Operations in a row, stopping at the first stop. -/
def execAll : List Instr → State → Out
  | [], s => .next s
  | i :: is, s => andThen (exec i s) (execAll is)

/-- The engine rests between sessions (R36), whatever the session is about to become. -/
structure EngineAtRest (s : State) : Prop where
  bitPhase : s.bitPhase = .idle
  half : s.half = .high
  pulseTicks : s.pulseTicks = 0
  gapTicks : s.gapTicks = 0

theorem engineAtRest_of_legal {P : Params} {s : State} (hl : legal P s = true) (hs : s.session = .idle) :
    EngineAtRest s := by
  obtain ⟨-, hp, hh, hc, hg⟩ | ⟨h, -⟩ | ⟨h, -⟩ | ⟨h, -⟩ := legal_iff.1 hl
  · exact ⟨hp, hh, hc, hg⟩
  all_goals simp [hs] at h

theorem legal_of_engineAtRest (P : Params) {s : State} (h : EngineAtRest s) (hs : s.session = .idle) :
    legal P s = true :=
  legal_iff.2 (.inl ⟨hs, h.bitPhase, h.half, h.pulseTicks, h.gapTicks⟩)

section Words

variable {s t : State}

theorem execAll_bufwrs {bs : List Byte} {i : Nat} {is : List Instr} (h : bufwrAll Config.params i bs s = .next t) :
    execAll (bufwrs i bs ++ is) s = execAll is t := by
  induction bs generalizing i s with
  | nil =>
    cases h
    rfl
  | cons b bs ih =>
    obtain ⟨u, hu, h⟩ := andThen_eq_next.1 h
    rw [bufwrs, List.cons_append, execAll, exec, execBufwr, hu, andThen_next, ih h]

/-- `ARM` is the operations of its expansion in a row. -/
theorem execAll_armExpansion {n : Nat} {colors : List Byte} (h : exec (.arm n colors) s = .next t) :
    execAll (armExpansion n colors) s = .next t := by
  obtain ⟨hn, hc, -⟩ := arm_eq_next h
  obtain ⟨v, hv, hstart⟩ := andThen_eq_next.1 ((arm_of_fitting hn hc s).symm.trans h)
  obtain ⟨u, hu, hlen⟩ := andThen_eq_next.1 hv
  rw [armExpansion, execAll_bufwrs hu]
  exact andThen_eq_next.2 ⟨v, hlen, andThen_eq_next.2 ⟨t, hstart, rfl⟩⟩

theorem hostWrite_of_mem_bufwrs {i : Nat} {bs : List Byte} {x : Instr} (h : x ∈ bufwrs i bs) : HostWrite x := by
  induction bs generalizing i with
  | nil => cases h
  | cons b bs ih =>
    obtain rfl | h := List.mem_cons.1 h
    · exact .bufwr i b
    · exact ih h

theorem hostWrite_of_mem_armExpansion {n : Nat} {colors : List Byte} {x : Instr} (h : x ∈ armExpansion n colors) :
    HostWrite x := by
  obtain h | h := List.mem_append.1 h
  · exact hostWrite_of_mem_bufwrs h
  · obtain rfl | rfl : x = .setlen (armBits n) ∨ x = .start := by simpa using h
    · exact .setlen _
    · exact .start

/-- A primitive has a host word, which decodes to it. -/
theorem hostWordOf_hostWrite {i : Instr} (hi : HostWrite i) :
    encodeWord i = some (.host (hostWordOf i)) ∧ decodeHost (hostWordOf i) = i := by
  cases hi <;> exact ⟨rfl, rfl⟩

/-- Primitives in a row encode to their host words in order. -/
theorem filterMap_encodeWord {is : List Instr} (h : ∀ i ∈ is, HostWrite i) :
    is.filterMap encodeWord = (is.map hostWordOf).map .host := by
  induction is with
  | nil => rfl
  | cons i is ih =>
    rw [List.filterMap_cons, (hostWordOf_hostWrite (h i (by simp))).1, ih fun x hx => h x (by simp [hx])]
    rfl

/-- The words of `ARM` are those of its expansion. -/
theorem eq_map_hostWordOf_of_encode_arm {n : Nat} {colors : List Byte} {words : List HostWord}
    (h : encode (.arm n colors) = words.map .host) : words = (armExpansion n colors).map hostWordOf := by
  have hx : encode (.arm n colors) = ((armExpansion n colors).map hostWordOf).map .host :=
    filterMap_encodeWord fun _ => hostWrite_of_mem_armExpansion
  exact List.map_injective_iff.2 (fun _ _ => PortWord.host.inj) (h.symm.trans hx)

/-- Ticks from Idle are inert: they spend their turns, and the last pass drove nothing (R91). -/
theorem run_idle_ticks (hr : Running s) (he : EngineAtRest s) (hs : s.session = .idle) (g : Nat)
    (d : Option Level) (ws : List HostWord) (ts : List Turn) :
    ∃ d', run g (withInputs d ws (List.replicate g .tick ++ ts) s) = .next (withInputs d' ws ts s) := by
  induction g generalizing d with
  | zero => exact ⟨d, rfl⟩
  | succ g ih =>
    have hstep : step (withInputs d ws (List.replicate (g + 1) .tick ++ ts) s) =
        .next (withInputs none ws (List.replicate g .tick ++ ts) s) := by
      refine step_eq_next.2 ⟨hr.1, .tIdle, ?_, .inl hr.2, tIdle_eq_next.2 ⟨?_, hs, rfl⟩⟩
      · simp only [fetchWord, withInputs, List.replicate_succ, List.cons_append, decode_selector, hs]
      · exact legal_of_engineAtRest (s := withInputs d ws _ s) _ ⟨he.1, he.2, he.3, he.4⟩ hs
    obtain ⟨d', h⟩ := ih none
    exact ⟨d', by rw [run_succ, hstep, andThen_next, h]⟩

/-- A primitive's word in the foreground context's turn runs it, and spends the turn and the word. -/
theorem step_hostWrite {i : Instr} (hi : HostWrite i) (hr : Running s) (h : exec i s = .next t) (d : Option Level)
    (ws : List HostWord) (ts : List Turn) :
    step (withInputs d (hostWordOf i :: ws) (.foreground :: ts) s) = .next (withInputs d ws ts t) := by
  obtain ⟨-, hdec⟩ := hostWordOf_hostWrite hi
  obtain ⟨-, -, hx⟩ := exec_hostWrite hi h
  exact step_eq_next.2 ⟨hr.1, i, congrArg Except.ok hdec, .inl hr.2, hx d ws ts⟩

/-- A primitive answers from Idle alone, so the ticks before its word are inert. -/
theorem run_ticks_hostWrite {i : Instr} (hi : HostWrite i) (hr : Running s) (he : EngineAtRest s)
    (h : exec i s = .next t) (g : Nat) (d : Option Level) (ws : List HostWord) (ts : List Turn) :
    ∃ d', run (g + 1) (withInputs d (hostWordOf i :: ws) (List.replicate g .tick ++ .foreground :: ts) s) =
      .next (withInputs d' ws ts t) := by
  obtain ⟨hs, -⟩ := exec_hostWrite hi h
  obtain ⟨d', hticks⟩ := run_idle_ticks hr he hs g d (hostWordOf i :: ws) (.foreground :: ts)
  exact ⟨d', run_succ_of_next hticks (step_hostWrite hi hr h d' ws ts)⟩

/-- Turns of the foreground context, one for each number, with that many ticks before it. -/
abbrev spacedTurns (gaps : List Nat) : List Turn := gaps.flatMap fun g => List.replicate g .tick ++ [.foreground]

theorem spacedTurns_cons_append (g : Nat) (gs : List Nat) (ts : List Turn) :
    spacedTurns (g :: gs) ++ ts = List.replicate g .tick ++ .foreground :: (spacedTurns gs ++ ts) := by
  simp [spacedTurns]

/-- Primitives in a row, presented word by word with ticks before each, do what they do in a row. -/
theorem run_hostWrites {is : List Instr} (his : ∀ i ∈ is, HostWrite i) (gaps : List Nat)
    (hlen : gaps.length = is.length) (hr : Running s) (he : EngineAtRest s) (h : execAll is s = .next t)
    (d : Option Level) (ws : List HostWord) (ts : List Turn) :
    ∃ d', run (gaps.sum + gaps.length) (withInputs d (is.map hostWordOf ++ ws) (spacedTurns gaps ++ ts) s) =
      .next (withInputs d' ws ts t) := by
  induction is generalizing gaps s d with
  | nil =>
    obtain rfl := List.eq_nil_of_length_eq_zero hlen
    cases h
    exact ⟨d, rfl⟩
  | cons i is ih =>
    obtain ⟨g, gs, rfl⟩ := List.exists_cons_of_length_eq_add_one hlen
    obtain ⟨hi, his⟩ := List.forall_mem_cons.1 his
    obtain ⟨u, hu, h⟩ := andThen_eq_next.1 h
    obtain ⟨-, hitems, -⟩ := exec_hostWrite hi hu
    have hru : Running u := by rw [hitems]; exact hr
    have heu : EngineAtRest u := by rw [hitems]; exact ⟨he.1, he.2, he.3, he.4⟩
    obtain ⟨d₁, hfirst⟩ := run_ticks_hostWrite hi hr he hu g d (is.map hostWordOf ++ ws) (spacedTurns gs ++ ts)
    obtain ⟨d', hrest⟩ := ih his gs (by simpa using hlen) hru heu h d₁
    have hsum : (g :: gs).sum + (g :: gs).length = g + 1 + (gs.sum + gs.length) := by
      simp only [List.sum_cons, List.length_cons]
      omega
    rw [hsum, spacedTurns_cons_append]
    exact ⟨d', (run_add_of_next hfirst).trans hrest⟩

end Words

/-- Settles O19: `ARM` is its expansion in a row, its words are the expansion's, and ticks before a word find the
engine at rest in Idle. -/
theorem armIsItsWordsUnderAnyTicks : Obligations.ArmIsItsWordsUnderAnyTicks := by
  intro n colors words rest gaps later s hwf hr hl hs hwords hp hlen hsched
  obtain ⟨hn, hc⟩ : n ≤ Config.params.maxLeds ∧ colors.length = armBytes n := by
    simpa [WellFormed, wellFormed, armBytes] using hwf
  obtain ⟨u, hu⟩ := arm_answers hn hc hs
  obtain rfl := eq_map_hostWordOf_of_encode_arm hwords
  obtain ⟨d, hrun⟩ := run_hostWrites (fun _ => hostWrite_of_mem_armExpansion) gaps (by simpa using hlen) hr
    (engineAtRest_of_legal hl hs) (execAll_armExpansion hu) s.driven rest later
  rw [← hp, ← hsched] at hrun
  exact ⟨_, u, hu, hrun, rfl⟩

/-! ## What the engine leaves of the frame (R44, R51) -/

/-- What no engine operation writes: the frame, the host port's result, the mark and the inputs. -/
structure FrameKept (s t : State) : Prop where
  buf : t.buf = s.buf
  activeBitCount : t.activeBitCount = s.activeBitCount
  hRdata : t.hRdata = s.hRdata
  violation : t.violation = s.violation
  booted : t.booted = s.booted
  program : t.program = s.program
  schedule : t.schedule = s.schedule

section FrameKept

variable {P : Params} {s t u : State}

theorem FrameKept.refl (s : State) : FrameKept s s := ⟨rfl, rfl, rfl, rfl, rfl, rfl, rfl⟩

theorem FrameKept.trans (h : FrameKept s t) (h' : FrameKept t u) : FrameKept s u :=
  ⟨h'.buf.trans h.buf, h'.activeBitCount.trans h.activeBitCount, h'.hRdata.trans h.hRdata,
    h'.violation.trans h.violation, h'.booted.trans h.booted, h'.program.trans h.program,
    h'.schedule.trans h.schedule⟩

theorem tIdle_frameKept (h : tIdle P s = .next t) : FrameKept s t := by
  obtain ⟨-, -, rfl⟩ := tIdle_eq_next.1 h
  exact ⟨rfl, rfl, rfl, rfl, rfl, rfl, rfl⟩

theorem tEntry_frameKept (h : tEntry P s = .next t) : FrameKept s t := by
  obtain ⟨-, -, rfl⟩ := tEntry_eq_next.1 h
  exact ⟨rfl, rfl, rfl, rfl, rfl, rfl, rfl⟩

theorem tStartbit_frameKept (h : tStartbit P s = .next t) : FrameKept s t := by
  obtain ⟨-, -, ⟨-, rfl⟩ | ⟨-, -, rfl⟩⟩ := tStartbit_eq_next.1 h <;> exact ⟨rfl, rfl, rfl, rfl, rfl, rfl, rfl⟩

theorem tShape_frameKept (h : tShape P s = .next t) : FrameKept s t := by
  obtain ⟨-, -, ⟨-, rfl⟩ | ⟨-, -, rfl⟩ | ⟨-, -, rfl⟩⟩ := tShape_eq_next.1 h <;>
    exact ⟨rfl, rfl, rfl, rfl, rfl, rfl, rfl⟩

theorem tNextbit_frameKept (h : tNextbit P s = .next t) : FrameKept s t := by
  obtain ⟨-, -, ⟨-, rfl⟩ | ⟨-, -, rfl⟩⟩ := tNextbit_eq_next.1 h <;> exact ⟨rfl, rfl, rfl, rfl, rfl, rfl, rfl⟩

theorem tGap_frameKept (h : tGap P s = .next t) : FrameKept s t := by
  obtain ⟨-, -, ⟨-, rfl⟩ | ⟨-, rfl⟩⟩ := tGap_eq_next.1 h <;> exact ⟨rfl, rfl, rfl, rfl, rfl, rfl, rfl⟩

/-- A symbol is ten passes, each of which keeps the frame. -/
theorem shapeWindow_frameKept {bit : FrameBit} (h : shapeWindow P bit s = .next t) : FrameKept s t :=
  shapePasses_induction (I := FrameKept s) (fun _ _ hu hv => hu.trans (tShape_frameKept hv)) 10 s t
    (.refl s) (shapeWindow_eq_next.1 h).2

theorem readByte_of_frameKept (h : FrameKept s t) (a : Nat) : readByte P t a = readByte P s a := by
  rw [readByte, h.buf, readByte]

end FrameKept

/-- Settles O28: each of the eight operations keeps the frame. -/
theorem engineOperationsLeaveTheFrameAlone : Obligations.EngineOperationsLeaveTheFrameAlone := by
  intro i s t hi h
  have hk : FrameKept s t := by
    simp only [List.mem_cons, List.not_mem_nil, or_false] at hi
    obtain rfl | rfl | rfl | rfl | rfl | rfl | rfl | rfl := hi
    · exact tIdle_frameKept h
    · exact tEntry_frameKept h
    · exact tStartbit_frameKept h
    · exact tShape_frameKept h
    · exact tNextbit_frameKept h
    · exact tGap_frameKept h
    · exact shapeWindow_frameKept h
    · exact shapeWindow_frameKept h
  exact ⟨readByte_of_frameKept hk, hk.activeBitCount, hk.hRdata, hk.violation, hk.booted, hk.program, hk.schedule⟩

/-! ## The bit windows of a session (R63, R99) -/

/-- Settles O48: by ticks alone bit `k`'s window is due after tick `2 + 11k` and closed ten ticks later, and `POLL`s
leave the engine's run alone. -/
theorem bitWindowsCarryTheFrameInOrder : Obligations.BitWindowsCarryTheFrameInOrder := by
  intro q s h k hk
  have hd := sessionDue_of_sessionStart h
  obtain ⟨w, hdue⟩ := run_windowDue hd hk
  have hw := windowDue_due hd k w
  have hclosed := (run_add_of_next hdue).trans (run_windowClosed hw)
  obtain ⟨r, ws, ts, hu⟩ := atTick_of_sessionStart h (two_add_le_sessionTicks hk (Nat.zero_le 11)) hdue
  obtain ⟨r', ws', ts', hv⟩ := atTick_of_sessionStart h (two_add_le_sessionTicks hk (j := 10) (by decide)) hclosed
  rw [show 2 + 11 * k + 10 = 12 + 11 * k by omega] at hv
  exact ⟨⟨_, hu, hw.start, rfl⟩, _, hv, rfl, rfl, rfl⟩

/-! ## The reset gap by ticks alone (R96) -/

/-- The gap is to begin, in a state of the R37 table with only ticks to come. -/
structure GapDue (u : State) : Prop where
  ticks : TicksOnly u
  session : u.session = .resetGap
  bitPhase : u.bitPhase = .idle
  half : u.half = .high
  pulseTicks : u.pulseTicks = 0
  gapTicks : u.gapTicks = 0

/-- The gap due in `u` after `g` of its ticks, short of the last; what the last pass left of the line is given. -/
def inGap (u : State) (g : Nat) (line : Level) (driven : Option Level) : State :=
  { u with gapTicks := g, line := line, driven := driven }

/-- The gap due in `u` after the last of its ticks. -/
def gapEnded (u : State) : State :=
  { u with session := .idle, gapTicks := 0, line := .low, driven := some .low }

section Gap

variable {u : State}

/-- A due gap has run none of its ticks, whatever the line showed before. -/
theorem eq_inGap_zero (h : GapDue u) : u = inGap u 0 u.line u.driven := by
  rw [inGap, ← h.gapTicks]

/-- The tick in a gap runs `T_GAP`. -/
theorem step_inGap (h : GapDue u) (g : Nat) (l : Level) (d : Option Level) :
    step (inGap u g l d) = exec .tGap (inGap u g l d) := by
  have ha : tickArm (inGap u g l d) = .tGap := by simp only [tickArm, inGap, h.session]
  rw [step_of_ticksOnly (s := inGap u g l d) h.ticks, ha]

theorem legal_inGap (h : GapDue u) {g : Nat} (hg : g < Config.params.resetTicks) (l : Level) (d : Option Level) :
    legal Config.params (inGap u g l d) = true :=
  legal_iff.2 (.inr (.inr (.inr ⟨h.session, h.bitPhase, h.half, h.pulseTicks, hg⟩)))

theorem step_inGap_of_lt (h : GapDue u) {g : Nat} (hg : g + 1 < Config.params.resetTicks) (l : Level)
    (d : Option Level) : step (inGap u g l d) = .next (inGap u (g + 1) .low (some .low)) := by
  rw [step_inGap h]
  exact tGap_eq_next.2 ⟨legal_inGap h (by omega) l d, h.session, .inr ⟨Nat.ne_of_lt hg, rfl⟩⟩

theorem step_inGap_of_eq (h : GapDue u) {g : Nat} (hg : g + 1 = Config.params.resetTicks) (l : Level)
    (d : Option Level) : step (inGap u g l d) = .next (gapEnded u) := by
  rw [step_inGap h]
  exact tGap_eq_next.2 ⟨legal_inGap h (by omega) l d, h.session, .inl ⟨hg, rfl⟩⟩

theorem run_inGap (h : GapDue u) {g : Nat} (hg : g + 1 < Config.params.resetTicks) :
    run (g + 1) u = .next (inGap u (g + 1) .low (some .low)) := by
  induction g with
  | zero =>
    have h0 := step_inGap_of_lt h hg u.line u.driven
    rw [← eq_inGap_zero h] at h0
    exact run_succ_of_next (run_zero u) h0
  | succ g ih => exact run_succ_of_next (ih (by omega)) (step_inGap_of_lt h hg _ _)

theorem run_gapEnded (h : GapDue u) : run Config.params.resetTicks u = .next (gapEnded u) := by
  obtain ⟨-, -, hmin, -⟩ := parametersMeetTheirBounds
  obtain ⟨g, hg⟩ : ∃ g, Config.params.resetTicks = g + 1 + 1 := ⟨Config.params.resetTicks - 2, by omega⟩
  rw [hg]
  exact run_succ_of_next (run_inGap h (by omega)) (step_inGap_of_eq h hg.symm _ _)

end Gap

/-! ## What a session shows is the frame's alone (R51, R63, R80) -/

/-- What a tick shows outside the block: the line, the phases, and what its pass drove. -/
def shown (s : State) : Level × Session × BitPhase × Option Level := (s.line, s.session, s.bitPhase, s.driven)

/-- What is shown `p + 1` ticks into the window of `bit`. -/
def windowShown (bit : FrameBit) (p : Nat) : Level × Session × BitPhase × Option Level :=
  if p < 9 then (windowLevel bit p, .sending, .sending, some (windowLevel bit p))
  else (.low, .sending, .nextBit, some .low)

/-- What is shown `g` ticks into the gap. -/
def gapShown (g : Nat) : Level × Session × BitPhase × Option Level :=
  if g = 0 then (.low, .resetGap, .idle, none)
  else if g < Config.params.resetTicks then (.low, .resetGap, .idle, some .low)
  else (.low, .idle, .idle, some .low)

/-- The tick after which the gap of a session of `n` bits is due. -/
def gapStart (n : Nat) : Nat := if n = 0 then 3 else 2 + 11 * n

theorem sessionTicks_eq (n : Nat) : sessionTicks n = gapStart n + Config.params.resetTicks := by
  unfold sessionTicks gapStart
  split <;> rfl

section Shown

variable {s : State}

theorem run_entered (h : SessionDue s) : run 1 s = .next (entered s) :=
  run_succ_of_next (run_zero s) (step_of_sessionDue h)

/-- The empty frame is at its completion test after two ticks. -/
theorem run_two_of_empty (h : SessionDue s) (hn : s.activeBitCount = 0) :
    run 2 s = .next { entered s with bitPhase := .nextBit } :=
  run_succ_of_next (run_entered h) (step_entered_of_empty h hn)

/-- The completion test of the empty frame leads to the gap (R95). -/
theorem step_emptyFrame (h : SessionDue s) (hn : s.activeBitCount = 0) :
    step { entered s with bitPhase := .nextBit } =
      .next { entered s with bitPhase := .idle, session := .resetGap } := by
  have ha : tickArm { entered s with bitPhase := .nextBit } = .tNextbit := by
    simp only [tickArm, entered, h.session]
  have hl : legal Config.params { entered s with bitPhase := .nextBit } = true :=
    legal_iff.2 (.inr (.inl ⟨h.session, by simp, h.half, rfl, h.gapTicks⟩))
  rw [step_of_ticksOnly (s := { entered s with bitPhase := .nextBit }) h.ticks, ha]
  exact tNextbit_eq_next.2 ⟨hl, ⟨h.session, rfl⟩, .inl ⟨hn.symm, rfl⟩⟩

theorem run_windowDue_shown (h : SessionDue s) {k : Nat} (hk : k < s.activeBitCount) :
    ∃ u, run (2 + 11 * k) s = .next u ∧ shown u = (.low, .sending, .sending, none) := by
  obtain ⟨w, hw⟩ := run_windowDue h hk
  exact ⟨_, hw, by simp [shown, windowDue, h.line, h.session]⟩

theorem run_window_shown (h : SessionDue s) {k p : Nat} (hk : k < s.activeBitCount) (hp : p < 10) :
    ∃ u, run (2 + 11 * k + (p + 1)) s = .next u ∧ shown u = windowShown (bufBit Config.params s k) p := by
  obtain ⟨w, hw⟩ := run_windowDue h hk
  have hdue := windowDue_due h k w
  rw [run_add_of_next hw]
  obtain hlt | rfl : p < 9 ∨ p = 9 := by omega
  · refine ⟨_, run_afterPass hdue hlt, ?_⟩
    rw [windowShown, if_pos hlt, ← h.session]
    rfl
  · refine ⟨_, run_windowClosed hdue, ?_⟩
    rw [windowShown, if_neg (by decide), ← h.session]
    rfl

/-- The gap is due after the completion test, of the empty frame or behind the last bit's window. -/
theorem run_gapDue (h : SessionDue s) :
    ∃ u, run (gapStart s.activeBitCount) s = .next u ∧ GapDue u ∧ u.line = .low ∧ u.driven = none := by
  rcases Nat.eq_zero_or_pos s.activeBitCount with hn | hn
  · have hgap := run_succ_of_next (run_two_of_empty h hn) (step_emptyFrame h hn)
    rw [gapStart, if_pos hn]
    exact ⟨_, hgap, ⟨h.ticks, rfl, rfl, h.half, rfl, h.gapTicks⟩, h.line, rfl⟩
  · obtain ⟨k, hk⟩ := Nat.exists_eq_add_one.2 hn
    obtain ⟨w, hw⟩ := run_windowDue h (k := k) (by omega)
    have hclosed := (run_add_of_next hw).trans (run_windowClosed (windowDue_due h k w))
    have hgap := run_succ_of_next hclosed (step_windowClosed_of_eq h hk.symm w)
    rw [gapStart, if_neg (by omega), hk]
    exact ⟨_, hgap, ⟨h.ticks, rfl, rfl, rfl, rfl, h.gapTicks⟩, rfl, rfl⟩

theorem run_gap_shown (h : SessionDue s) {g : Nat} (hg : g ≤ Config.params.resetTicks) :
    ∃ u, run (gapStart s.activeBitCount + g) s = .next u ∧ shown u = gapShown g := by
  obtain ⟨u, hu, hdue, hl, hd⟩ := run_gapDue h
  rw [run_add_of_next hu]
  obtain rfl | ⟨hpos, hlt⟩ | rfl : g = 0 ∨ (0 < g ∧ g < Config.params.resetTicks) ∨ g = Config.params.resetTicks := by
    omega
  · exact ⟨u, rfl, by simp [shown, gapShown, hl, hd, hdue.session, hdue.bitPhase]⟩
  · obtain ⟨g, rfl⟩ := Nat.exists_eq_add_one.2 hpos
    exact ⟨_, run_inGap hdue hlt, by simp [shown, gapShown, inGap, hlt, hdue.session, hdue.bitPhase]⟩
  · have hpos := resetTicks_pos Config.params
    exact ⟨_, run_gapEnded hdue, by simp [shown, gapShown, gapEnded, Nat.ne_of_gt hpos, hdue.bitPhase]⟩

end Shown

/-- Where a tick of a session of `n` bits falls: at the entry, at the empty frame's test, where a window is due, at
a pass of a window, or in the gap. -/
theorem sessionTick_cases {n k : Nat} (hk : 0 < k) (hk' : k ≤ sessionTicks n) :
    k = 1 ∨ (n = 0 ∧ k = 2) ∨ (∃ i, i < n ∧ k = 2 + 11 * i) ∨
      (∃ i p, i < n ∧ p < 10 ∧ k = 2 + 11 * i + (p + 1)) ∨
      ∃ g, g ≤ Config.params.resetTicks ∧ k = gapStart n + g := by
  rw [sessionTicks_eq] at hk'
  rcases Nat.lt_or_ge k (gapStart n) with hlt | hge
  · unfold gapStart at hlt
    split at hlt
    · omega
    · rcases Nat.eq_or_lt_of_le hk with h1 | h2
      · exact .inl h1.symm
      · have hdiv := Nat.div_add_mod (k - 2) 11
        have hmod := Nat.mod_lt (k - 2) (y := 11) (by decide)
        rcases Nat.eq_zero_or_pos ((k - 2) % 11) with h0 | hp
        · exact .inr (.inr (.inl ⟨(k - 2) / 11, by omega, by omega⟩))
        · exact .inr (.inr (.inr (.inl ⟨(k - 2) / 11, (k - 2) % 11 - 1, by omega, by omega, by omega⟩)))
  · exact .inr (.inr (.inr (.inr ⟨k - gapStart n, by omega, by omega⟩)))

/-- The length and the frame bits within it determine what each tick of a session shows. -/
theorem exists_shown (n : Nat) (bit : Nat → FrameBit) {k : Nat} (hk : 0 < k) (hk' : k ≤ sessionTicks n) :
    ∃ x, ∀ s, SessionDue s → s.activeBitCount = n → (∀ i, i < n → bufBit Config.params s i = bit i) →
      ∃ u, run k s = .next u ∧ shown u = x := by
  obtain rfl | ⟨rfl, rfl⟩ | ⟨i, hi, rfl⟩ | ⟨i, p, hi, hp, rfl⟩ | ⟨g, hg, rfl⟩ := sessionTick_cases hk hk'
  · refine ⟨(.low, .sending, .startBit, none), fun s h _ _ => ⟨_, run_entered h, ?_⟩⟩
    simp [shown, entered, h.line, h.session]
  · refine ⟨(.low, .sending, .nextBit, none), fun s h hn _ => ⟨_, run_two_of_empty h hn, ?_⟩⟩
    simp [shown, entered, h.line, h.session]
  · exact ⟨_, fun s h hn _ => run_windowDue_shown h (hn ▸ hi)⟩
  · exact ⟨windowShown (bit i) p, fun s h hn hbit => hbit i hi ▸ run_window_shown h (hn ▸ hi) hp⟩
  · exact ⟨gapShown g, fun s h hn _ => hn ▸ run_gap_shown h hg⟩

/-- Frames that agree on the bytes within the length have the same frame bits there. -/
theorem bufBit_eq_of_bytes {P : Params} {s t : State} {n : Nat}
    (hb : ∀ a, 8 * a < n → readByte P s a = readByte P t a) {i : Nat} (hi : i < n) : bufBit P s i = bufBit P t i := by
  rw [bufBit_eq, bufBit_eq, hb (i / 8) (by omega)]

/-- A session shows at each tick what ticks alone lead to. -/
theorem atTick_shown {q s u : State} (h : SessionStart q s) {k : Nat} (hk : k ≤ sessionTicks s.activeBitCount)
    (hu : run k { s with schedule := [], program := [] } = .next u) :
    ∃ v, atTick k s = .next v ∧ shown v = shown u := by
  obtain ⟨r, ws, ts, hv⟩ := atTick_of_sessionStart h hk hu
  exact ⟨_, hv, rfl⟩

/-- Settles O54: each tick after the start shows what the length and the frame bits determine, and the start itself
is quiescent but for the session. -/
theorem bytesBeyondTheFrameAreNotSent : Obligations.BytesBeyondTheFrameAreNotSent := by
  intro q q' s s' h h' hlen hbytes k hk
  have hd := sessionDue_of_sessionStart h
  have hd' := sessionDue_of_sessionStart h'
  rcases Nat.eq_zero_or_pos k with rfl | hpos
  · refine ⟨s, s', by simp [atTick], by simp [atTick], hd.line.trans hd'.line.symm,
      hd.session.trans hd'.session.symm, hd.bitPhase.trans hd'.bitPhase.symm, ?_⟩
    exact fun hlt => absurd hlt (by decide)
  · obtain ⟨x, hx⟩ := exists_shown s.activeBitCount (bufBit Config.params s) hpos hk
    obtain ⟨u, hu, hux⟩ := hx _ hd rfl fun _ _ => rfl
    obtain ⟨u', hu', hux'⟩ := hx _ hd' hlen.symm fun i hi => (bufBit_eq_of_bytes hbytes hi).symm
    obtain ⟨v, hv, hvx⟩ := atTick_shown h hk hu
    obtain ⟨v', hv', hvx'⟩ := atTick_shown h' (hlen ▸ hk) hu'
    have hshown : shown v = shown v' := by rw [hvx, hvx', hux, hux']
    obtain ⟨hl, hs, hp, hdr⟩ : v.line = v'.line ∧ v.session = v'.session ∧ v.bitPhase = v'.bitPhase ∧
        v.driven = v'.driven := by simpa [shown] using hshown
    exact ⟨v, v', hv, hv', hl, hs, hp, fun _ => hdr⟩

end Sys2Proof.Proofs

/-!
SUPPORT. The proofs of the family `30_encoding.md`: the decoder undoes the encoder (R60 to R66, R71), the words fit
the host port (R66, R67), the turn picks the word (R65, R73), `ARM` refused (R83, R111), a line symbol is its ten
passes (R62, R99), and a session's length and drive record (R63, R100, R103).
-/

namespace Sys2Proof.Proofs

open Sys2Proof.Machine Sys2Proof.Safety

/-! ## The decoder undoes the encoder (R60, R71, R72) -/

section Encoding

variable {i : Instr} {w : PortWord} {n : Nat} {colors : List Byte}

theorem decode_of_encodeWord (h : encodeWord i = some w) : decode w = .ok i := by
  cases i with
  | arm n colors => cases h
  | _ => cases h; rfl

/-- An operation with a word is its own only primitive. -/
theorem primitives_of_encodeWord (h : encodeWord i = some w) : primitives i = [i] := by
  cases i with
  | arm n colors => cases h
  | _ => rfl

theorem encode_of_encodeWord (h : encodeWord i = some w) : encode i = [w] := by
  rw [encode, primitives_of_encodeWord h, List.filterMap_cons_some h, List.filterMap_nil]

/-- `ARM` is the only operation without a word (R72). -/
theorem encodeWord_eq_none_iff : encodeWord i = none ↔ ∃ n colors, i = .arm n colors := by
  cases i <;> simp [encodeWord]

/-- The words of primitives in a row decode to them, in their order. -/
theorem decodeAll_filterMap_encodeWord {is : List Instr} (his : ∀ i ∈ is, HostWrite i) :
    decodeAll (is.filterMap encodeWord) = .ok is := by
  induction is with
  | nil => rfl
  | cons i is ih =>
    obtain ⟨hi, his⟩ := List.forall_mem_cons.1 his
    have hw := (hostWordOf_hostWrite hi).1
    rw [List.filterMap_cons_some hw]
    exact decodeAll_cons_ok (decode_of_encodeWord hw) (ih his)

theorem armExpansion_length : (armExpansion n colors).length = colors.length + 2 := by
  simp [armExpansion, bufwrs_length]

/-- The colours come first in the expansion, each at its index. -/
theorem armExpansion_getElem?_of_lt {k : Nat} (hk : k < colors.length) :
    (armExpansion n colors)[k]? = some (.bufwr k colors[k]) := by
  rw [armExpansion, List.getElem?_append_left (by rwa [bufwrs_length]), bufwrs_getElem?]
  simp [hk]

/-- Behind the colours come the length and the start. -/
theorem armExpansion_getElem?_add (k : Nat) :
    (armExpansion n colors)[colors.length + k]? = [Instr.setlen (armBits n), .start][k]? := by
  rw [armExpansion, List.getElem?_append_right (by simp [bufwrs_length])]
  simp [bufwrs_length]

end Encoding

/-- Settles O2: case by case for the operations with a word, and primitive by primitive for `ARM`. -/
theorem decodeOfEncodeIsTheInstruction : Obligations.DecodeOfEncodeIsTheInstruction := by
  refine ⟨fun i w h => ⟨encode_of_encodeWord h, decode_of_encodeWord h⟩, fun i => encodeWord_eq_none_iff,
    fun n colors => ⟨armExpansion n colors, ?_, armExpansion_length, ?_, ?_, ?_⟩⟩
  · exact decodeAll_filterMap_encodeWord fun _ => hostWrite_of_mem_armExpansion
  · exact fun k hk => armExpansion_getElem?_of_lt hk
  · exact armExpansion_getElem?_add 0
  · exact armExpansion_getElem?_add 1

/-- Settles O1, by decoding the twelve words. -/
theorem specWordsDecode : Obligations.SpecWordsDecode := by
  unfold Obligations.SpecWordsDecode
  decide

/-- Settles O4: each code's row reads the signals it lists. -/
theorem unlistedHostOperandsAreIgnored : Obligations.UnlistedHostOperandsAreIgnored :=
  fun _ _ _ _ _ _ => ⟨rfl, rfl, rfl, rfl⟩

/-! ## Host words fit the host port (R66, R67) -/

section Fitting

variable {i x : Instr} {n : Nat} {colors : List Byte}

/-- The `BUFWR`s in a row write consecutive indices. -/
theorem exists_index_of_mem_bufwrs {a : Nat} (h : x ∈ bufwrs a colors) :
    ∃ k v, k < colors.length ∧ x = .bufwr (a + k) v := by
  obtain ⟨k, hk⟩ := List.mem_iff_getElem?.1 h
  rw [bufwrs_getElem?] at hk
  obtain ⟨v, hv, rfl⟩ := Option.map_eq_some_iff.1 hk
  exact ⟨k, v, (List.getElem?_eq_some_iff.1 hv).1, rfl⟩

/-- The primitives of a well-formed `ARM` are well-formed: its derived operands do not overflow (R67). -/
theorem wellFormed_of_mem_armExpansion (h : WellFormed (.arm n colors)) (hx : x ∈ armExpansion n colors) :
    WellFormed x := by
  obtain ⟨hn, hc⟩ : n ≤ Config.params.maxLeds ∧ colors.length = armBytes n := by
    simpa [WellFormed, wellFormed, armBytes] using h
  have hbytes := armBytes_le_bufCap hn
  have hbits := Nat.lt_of_le_of_lt (armBits_le_bufBits hn) (bufBits_lt_two_pow_wIdx Config.params)
  obtain hx | hx := List.mem_append.1 hx
  · obtain ⟨k, v, hk, rfl⟩ := exists_index_of_mem_bufwrs hx
    exact decide_eq_true (by omega)
  · obtain rfl | rfl : x = .setlen (armBits n) ∨ x = .start := by simpa using hx
    · exact decide_eq_true hbits
    · rfl

theorem wellFormed_of_mem_primitives (h : WellFormed i) (hx : x ∈ primitives i) : WellFormed x := by
  cases hw : encodeWord i with
  | none =>
    obtain ⟨n, colors, rfl⟩ := encodeWord_eq_none_iff.1 hw
    exact wellFormed_of_mem_armExpansion h hx
  | some w =>
    rw [primitives_of_encodeWord hw, List.mem_singleton] at hx
    exact hx ▸ h

/-- The word of a well-formed host operation fits; the signals it does not list are 0. -/
theorem hostWord_fits {w : HostWord} (h : WellFormed i) (hw : encodeWord i = some (.host w)) :
    w.hAddr < Config.params.bufCap ∧ w.hLen < 2 ^ Config.params.wIdx := by
  have haddr := bufCap_pos Config.params
  have hlen : 0 < 2 ^ Config.params.wIdx := Nat.two_pow_pos _
  cases i with
  | poll => cases hw; exact ⟨haddr, hlen⟩
  | bufwr a v => cases hw; exact ⟨of_decide_eq_true h, hlen⟩
  | setlen n => cases hw; exact ⟨haddr, of_decide_eq_true h⟩
  | start => cases hw; exact ⟨haddr, hlen⟩
  | _ => cases hw

end Fitting

/-- Settles O3: a word of `i` is the word of one of its primitives, which is well-formed with it. -/
theorem wellFormedWordsFitTheHostPort : Obligations.WellFormedWordsFitTheHostPort := by
  intro i w h hw
  obtain ⟨x, hx, hxw⟩ := List.mem_filterMap.1 hw
  exact hostWord_fits (wellFormed_of_mem_primitives h hx) hxw

/-! ## The turn picks the word (R48, R65, R66, R90) -/

section Turns

variable {s : State}

theorem fetchWord_of_tickTurn (h : TickTurn s) : fetchWord s = .tick (selector s.session s.bitPhase) := by
  unfold fetchWord
  split <;> simp_all [TickTurn]

theorem fetchWord_of_foregroundTurn (h : ForegroundTurn s) : fetchWord s = .host (s.program.headD idlePort) := by
  obtain ⟨ts, hs⟩ := List.head?_eq_some_iff.1 h
  simp only [fetchWord, hs]

/-- A tick runs the arm that the state selects. -/
theorem step_of_tickTurn (hr : Running s) (h : TickTurn s) : step s = exec (tickArm s) (fetchRest s) := by
  have hd : decode (fetchWord s) = .ok (tickArm s) := by
    rw [fetchWord_of_tickTurn h, decode_selector_eq_tickArm]
  exact (stepRunsTheDecodedInstruction s _ hr.1 hd (.inl hr.2)).1

end Turns

/-- Settles O6: the tick's arm, row by row of R65. -/
theorem tickRunsTheArmTheStateSelects : Obligations.TickRunsTheArmTheStateSelects := by
  intro s hr h
  rw [step_of_tickTurn hr h, tickArm]
  cases s.session with
  | idle => rfl
  | sending => cases s.bitPhase <;> rfl
  | resetGap => rfl

/-- Settles O8: the idle port's word is `POLL`'s. -/
theorem idleHostPortPolls : Obligations.IdleHostPortPolls := by
  intro s hr h hp
  have hd : decode (fetchWord s) = .ok .poll := by
    rw [fetchWord_of_foregroundTurn h, hp]
    rfl
  exact (stepRunsTheDecodedInstruction s _ hr.1 hd (.inl hr.2)).1

/-! ## What `POLL` answers (R64, R73) -/

theorem sessionCode_injective : Function.Injective Session.code := by
  intro a b
  cases a <;> cases b <;> decide

/-- Code 11 is reserved (R68). -/
theorem sessionCode_ne_reserved (session : Session) : session.code ≠ 0b11#2 := by
  cases session <;> decide

/-- Settles O13: the answer is the code of `session`, and the codes differ. -/
theorem pollReturnsTheSessionCode : Obligations.PollReturnsTheSessionCode := fun s =>
  ⟨{ s with hRdata := s.session.code }, rfl, rfl, sessionCode_injective.eq_iff (b := .idle),
    sessionCode_injective.eq_iff (b := .sending), sessionCode_injective.eq_iff (b := .resetGap),
    sessionCode_ne_reserved s.session⟩

/-! ## `ARM` refused (R83, R111) -/

section Refused

variable {P : Params} {s : State}

@[simp] theorem andThen_raise (v : Violation) (s : State) (f : State → Out) : andThen (raise v s) f = raise v s := rfl

theorem bufwr_of_busy {i : Nat} (hi : i < P.bufCap) (hs : busy s) (v : Byte) :
    bufwr P i v s = raise (.writeBusy .bufwr s.session) s :=
  (if_neg (Nat.not_le.2 hi)).trans (if_pos hs)

theorem setlen_of_busy {n : Nat} (hn : n ≤ bufBits P) (hs : busy s) :
    setlen P n s = raise (.writeBusy .setlen s.session) s :=
  (if_neg (Nat.not_lt.2 hn)).trans (if_pos hs)

/-- While busy, `ARM` stops at its first primitive: `SETLEN` where there is no colour, else `BUFWR`. -/
theorem arm_of_busy {n : Nat} {colors : List Byte} (hn : n ≤ P.maxLeds) (hc : colors.length = armBytes n)
    (hs : busy s) :
    arm P n colors s = raise (.writeBusy (if n = 0 then .setlen else .bufwr) s.session) s := by
  rw [arm_of_fitting hn hc]
  cases colors with
  | nil =>
    obtain rfl : n = 0 := by simpa [armBytes, Config.bytesPerLed] using hc
    rw [bufwrAll, andThen_next, setlen_of_busy (armBits_le_bufBits hn) hs, andThen_raise, if_pos rfl]
  | cons b bs =>
    have hn0 : n ≠ 0 := by
      rintro rfl
      simp [armBytes] at hc
    rw [bufwrAll, bufwr_of_busy (bufCap_pos P) hs, andThen_raise, andThen_raise, andThen_raise, if_neg hn0]

end Refused

/-- Settles O18: V5 comes before the primitives, and the first of them raises V2. -/
theorem armBrokenPreconditionsAreRefused : Obligations.ArmBrokenPreconditionsAreRefused :=
  fun _ _ _ => ⟨fun h => if_pos h, fun hn hc hs => arm_of_busy hn hc hs⟩

/-! ## A line symbol is the ten passes of its window (R62, R94, R99) -/

/-- `s` with another mark, another `booted` and other turns to come, none of which a pass looks at. -/
def withControl (v : Option Violation) (b : Bool) (ts : List Turn) (s : State) : State :=
  { s with violation := v, booted := b, schedule := ts }

section Symbols

variable {P : Params} {s t u : State}

theorem tShape_withControl (h : tShape P s = .next t) (v : Option Violation) (b : Bool) (ts : List Turn) :
    tShape P (withControl v b ts s) = .next (withControl v b ts t) := by
  obtain ⟨hl, hs, ⟨hp, rfl⟩ | ⟨hp, hh, rfl⟩ | ⟨hp, hh, rfl⟩⟩ := tShape_eq_next.1 h
  · exact tShape_eq_next.2 ⟨hl, hs, .inl ⟨hp, rfl⟩⟩
  · exact tShape_eq_next.2 ⟨hl, hs, .inr (.inl ⟨hp, hh, rfl⟩)⟩
  · exact tShape_eq_next.2 ⟨hl, hs, .inr (.inr ⟨hp, hh, rfl⟩)⟩

theorem shapePasses_withControl {n : Nat} (h : shapePasses P n s = .next t) (v : Option Violation) (b : Bool)
    (ts : List Turn) : shapePasses P n (withControl v b ts s) = .next (withControl v b ts t) := by
  induction n generalizing s with
  | zero =>
    cases h
    rfl
  | succ n ih =>
    obtain ⟨u, hu, h⟩ := shapePasses_succ_eq_next.1 h
    exact shapePasses_succ_eq_next.2 ⟨_, tShape_withControl hu v b ts, ih h⟩

/-- While a window lasts, ticks are `T_SHAPE` passes. -/
theorem run_eq_shapePasses {n : Nat} (ht : TicksOnly s) (hs : s.session = .sending) (hp : s.bitPhase = .sending)
    (hn : passesDone s + n ≤ 10) : run n s = shapePasses Config.params n s := by
  induction n generalizing s with
  | zero => rfl
  | succ n ih =>
    have hstep : step s = tShape Config.params s := by
      have ha : tickArm s = .tShape := by simp only [tickArm, hs, hp]
      rw [step_of_ticksOnly ht, ha]
      rfl
    rw [run_succ, shapePasses, hstep]
    cases h : tShape Config.params s with
    | next t =>
      obtain ⟨hts, ⟨htp, hc, -⟩ | ⟨-, hc⟩⟩ := tShape_counts h
      · exact ih (ticksOnly_of_step ht (hstep.trans h)) hts htp (by omega)
      · obtain rfl : n = 0 := by omega
        rfl
    | fault r => rfl
    | refused r => rfl

theorem shapePasses_of_windowDue (h : WindowDue u) : shapePasses Config.params 10 u = .next (windowClosed u) := by
  obtain ⟨hs, hp, hh, hc, -⟩ := h.start
  have hdone : passesDone u = 0 := by simp [passesDone, hh, hc]
  rw [← run_eq_shapePasses h.ticks hs hp (by omega), run_windowClosed h]

/-- A window's start in the table of R37 is a due window once only ticks are to come. -/
theorem windowDue_of_legal {bit : FrameBit} (ht : TicksOnly s) (hl : Legal s) (h : atWindowStart bit s) :
    WindowDue s := by
  obtain ⟨hs, hp, hh, hc, -⟩ := h
  exact ⟨ht, ⟨hs, hp, hh, hc, rfl⟩, gapTicks_eq_zero_of_sending hl hs⟩

/-- A symbol closes the window it starts, whatever the mark and whatever is to come. -/
theorem shapeWindow_of_legal {bit : FrameBit} (hl : Legal s) (h : atWindowStart bit s) :
    shapeWindow Config.params bit s = .next (windowClosed s) := by
  have hdue : WindowDue (withControl none true [] s) := windowDue_of_legal ⟨⟨rfl, rfl⟩, rfl⟩ hl h
  exact shapeWindow_eq_next.2
    ⟨h, shapePasses_withControl (shapePasses_of_windowDue hdue) s.violation s.booted s.schedule⟩

/-- What a symbol's closed window holds, written out. -/
theorem windowClosed_eq {bit : FrameBit} (h : atWindowStart bit s) :
    windowClosed s =
      { s with
        line := .low, driven := some .low, bitIndex := s.bitIndex + 1, bitPhase := .nextBit,
        window := windowLevels bit } := by
  obtain ⟨-, -, hh, hc, rfl⟩ := h
  rw [windowClosed, ← hh, ← hc]

/-- A symbol's word is its ten levels, the first pass in bit 9 (R62). -/
theorem windowLevel_eq_symbolLevels :
    ∀ (bit : FrameBit) (k : Nat), k < 10 →
      windowLevel bit k = if (symbolLevels bit).getLsbD (9 - k) then .high else .low := by
  intro bit
  cases bit <;> decide

theorem windowLevel_nine (bit : FrameBit) : windowLevel bit 9 = .low := by cases bit <;> rfl

/-- Pass `k` of a due window drives its level. -/
theorem run_window_driven (h : WindowDue u) {k : Nat} (hk : k < 10) :
    ∃ t, run (k + 1) u = .next t ∧ t.driven = some (windowLevel u.currentBit k) := by
  obtain hlt | rfl : k < 9 ∨ k = 9 := by omega
  · exact ⟨_, run_afterPass h hlt, rfl⟩
  · exact ⟨_, run_windowClosed h, by rw [windowLevel_nine]; rfl⟩

end Symbols

/-- Settles O32: a symbol closes its window. -/
theorem symbolDrivesItsTenLevels : Obligations.SymbolDrivesItsTenLevels := by
  intro s hl hs hp hh hc
  refine ⟨fun hb => ?_, fun hb => ?_⟩
  · have hstart : atWindowStart .zero s := ⟨hs, hp, hh, hc, hb⟩
    exact (shapeWindow_of_legal hl hstart).trans (congrArg _ (windowClosed_eq hstart))
  · have hstart : atWindowStart .one s := ⟨hs, hp, hh, hc, hb⟩
    exact (shapeWindow_of_legal hl hstart).trans (congrArg _ (windowClosed_eq hstart))

/-- Settles O33: ten ticks close the window as the symbol does, and pass `k` drives the symbol's level. -/
theorem symbolIsTenTicks : Obligations.SymbolIsTenTicks := by
  intro s bit hr hl hsched h
  have hdue := windowDue_of_legal ⟨hr, hsched⟩ hl h
  refine ⟨?_, fun k hk => ?_⟩
  · rw [run_windowClosed hdue, ← shapeWindow_of_legal hl h]
    cases bit <;> rfl
  · obtain ⟨-, -, -, -, rfl⟩ := h
    obtain ⟨t, ht, hd⟩ := run_window_driven hdue hk
    exact ⟨t, ht, by rw [hd, windowLevel_eq_symbolLevels _ k hk]⟩

/-! ## A session ends after its ticks, with the frame as it was (R100, R103) -/

/-- Before the `n`-th tick fewer than `n` ticks have run. -/
theorem ticksBy_lt_of_lt_stepsToTick {j n : Nat} {ts : List Turn} (h : j < stepsToTick n ts) : ticksBy j ts < n := by
  induction ts generalizing j n with
  | nil => simpa using h
  | cons t ts ih =>
    obtain _ | n := n
    · simp at h
    obtain _ | j := j
    · simp
    cases t with
    | tick => exact Nat.succ_lt_succ (ih (Nat.lt_of_succ_lt_succ h))
    | foreground => exact ih (Nat.lt_of_succ_lt_succ h)
    | reset => exact ih (Nat.lt_of_succ_lt_succ h)
    | symbol levels => exact ih (Nat.lt_of_succ_lt_succ h)

section Ending

variable {s t u : State}

/-- What every tick keeps, and what it makes true, carries over to a run of ticks alone. -/
theorem run_ticksOnly_induction {I : State → Prop} (hI : ∀ s t, I s → exec (tickArm s) s = .next t → I t) {k : Nat}
    (ht : TicksOnly s) (hs : I s) (h : run k s = .next u) : I u := by
  induction k generalizing s with
  | zero =>
    cases h
    exact hs
  | succ k ih =>
    rw [run_succ] at h
    obtain ⟨t, hstep, h⟩ := andThen_eq_next.1 h
    exact ih (ticksOnly_of_step ht hstep) (hI s t hs ((step_of_ticksOnly ht).symm.trans hstep)) h

theorem exec_tickArm_frameKept (h : exec (tickArm s) s = .next t) : FrameKept s t := by
  unfold tickArm at h
  split at h
  · exact tIdle_frameKept h
  · exact tEntry_frameKept h
  · exact tStartbit_frameKept h
  · exact tShape_frameKept h
  · exact tNextbit_frameKept h
  · exact tGap_frameKept h

/-- In the gap every bit of the frame has been sent (R26). -/
def AllSentInGap (s : State) : Prop := s.session = .resetGap → s.bitIndex = s.activeBitCount

/-- Only the completion test leads to the gap, and no tick of the gap writes either number. -/
theorem exec_tickArm_allSentInGap (hs : AllSentInGap s) (h : exec (tickArm s) s = .next t) : AllSentInGap t := by
  intro hg
  unfold tickArm at h
  split at h
  · obtain ⟨-, -, ht, -⟩ := tIdle_phases h
    simp [ht] at hg
  · obtain ⟨-, -, ht, -⟩ := tEntry_phases h
    simp [ht] at hg
  · obtain ⟨-, -, ht, -⟩ := tStartbit_phases h
    simp [ht] at hg
  · obtain ⟨-, -, ht, -⟩ := tShape_phases h
    simp [ht] at hg
  · obtain ⟨-, ⟨hsend, -⟩, ⟨hb, rfl⟩ | ⟨-, -, rfl⟩⟩ := tNextbit_eq_next.1 h
    · exact hb
    · simp [hsend] at hg
  · obtain ⟨-, hgap, ⟨-, rfl⟩ | ⟨-, rfl⟩⟩ := tGap_eq_next.1 h <;> exact hs hgap

theorem windowShown_session (bit : FrameBit) (p : Nat) : (windowShown bit p).2.1 = .sending := by
  unfold windowShown
  split <;> rfl

theorem gapShown_session_of_lt {g : Nat} (hg : g < Config.params.resetTicks) : (gapShown g).2.1 = .resetGap := by
  rw [gapShown, if_pos hg]
  split <;> rfl

theorem gapShown_driven {g : Nat} (hg : 0 < g) : (gapShown g).2.2.2 = some .low := by
  rw [gapShown, if_neg (by omega)]
  split <;> rfl

/-- By ticks alone a session is busy at each tick before its last. -/
theorem busy_of_lt_sessionTicks (h : SessionDue s) {k : Nat} (hk : k < sessionTicks s.activeBitCount) :
    ∃ u, run k s = .next u ∧ busy u := by
  obtain rfl | hpos := Nat.eq_zero_or_pos k
  · exact ⟨s, rfl, by simp [h.session]⟩
  obtain rfl | ⟨hn, rfl⟩ | ⟨i, hi, rfl⟩ | ⟨i, p, hi, hp, rfl⟩ | ⟨g, -, rfl⟩ := sessionTick_cases hpos hk.le
  · exact ⟨_, run_entered h, by simp [entered, h.session]⟩
  · exact ⟨_, run_two_of_empty h hn, by simp [entered, h.session]⟩
  · obtain ⟨w, hw⟩ := run_windowDue h hi
    exact ⟨_, hw, by simp [windowDue, h.session]⟩
  · obtain ⟨u, hu, hx⟩ := run_window_shown h hi hp
    have hs : u.session = .sending := (congrArg (·.2.1) hx).trans (windowShown_session _ p)
    exact ⟨u, hu, by simp [hs]⟩
  · have hg : g < Config.params.resetTicks := by
      rw [sessionTicks_eq] at hk
      omega
    obtain ⟨u, hu, hx⟩ := run_gap_shown h hg.le
    have hs : u.session = .resetGap := (congrArg (·.2.1) hx).trans (gapShown_session_of_lt hg)
    exact ⟨u, hu, by simp [hs]⟩

/-- By ticks alone a session ends quiescent, its frame sent and as it was. -/
theorem run_sessionTicks (h : SessionDue s) :
    ∃ u, run (sessionTicks s.activeBitCount) s = .next u ∧ Quiescent u ∧ u.bitIndex = s.activeBitCount ∧
      FrameKept s u := by
  obtain ⟨u, hu, hdue, -⟩ := run_gapDue h
  have hkept : FrameKept s u :=
    run_ticksOnly_induction (fun _ _ hs ht => hs.trans (exec_tickArm_frameKept ht)) h.ticks (.refl s) hu
  have hsent : AllSentInGap u :=
    run_ticksOnly_induction (fun _ _ => exec_tickArm_allSentInGap) h.ticks (fun hg => by simp [h.session] at hg) hu
  refine ⟨gapEnded u, ?_, ⟨rfl, hdue.bitPhase, hdue.half, hdue.pulseTicks, rfl, rfl⟩,
    (hsent hdue.session).trans hkept.activeBitCount, ?_⟩
  · rw [sessionTicks_eq, run_add_of_next hu, run_gapEnded hdue]
  · exact hkept.trans ⟨rfl, rfl, rfl, rfl, rfl, rfl, rfl⟩

end Ending

/-- Settles O47: `POLL`s leave the engine's run alone, so the session is busy as long as its ticks alone keep it busy,
and ends as they end it. -/
theorem sessionEndsAfterItsTicks : Obligations.SessionEndsAfterItsTicks := by
  intro q s h
  have hd := sessionDue_of_sessionStart h
  have hlen : s.activeBitCount = q.activeBitCount := by rw [sessionStart_eq h]
  have hbuf : s.buf = q.buf := by rw [sessionStart_eq h]
  refine ⟨fun j hj => ?_, ?_⟩
  · obtain ⟨u, hu, hbusy⟩ := busy_of_lt_sessionTicks hd (ticksBy_lt_of_lt_stepsToTick hj)
    obtain ⟨r, ws, ht⟩ := run_withHostSide s.schedule s.hRdata s.program hd.ticks h.quiet hj.le hu
    exact ⟨_, ht, hbusy⟩
  · obtain ⟨u, hu, hquiet, hi, hkept⟩ := run_sessionTicks hd
    obtain ⟨r, ws, ts, ht⟩ := atTick_of_sessionStart h le_rfl hu
    exact ⟨_, ht, hquiet, hi.trans hlen, hkept.activeBitCount.trans hlen, hkept.buf.trans hbuf⟩

/-! ## The drive record of a session (R62, R63, R99) -/

section Drives

variable {s : State}

/-- The two passes before the first window drive nothing. -/
theorem run_entry_driven (h : SessionDue s) (hn : 0 < s.activeBitCount) {k : Nat} (hk : 1 ≤ k) (hk' : k ≤ 2) :
    ∃ u, run k s = .next u ∧ u.driven = none := by
  obtain rfl | rfl : k = 1 ∨ k = 2 := by omega
  · exact ⟨_, run_entered h, rfl⟩
  · obtain ⟨w, hw⟩ := run_windowDue h hn
    exact ⟨_, hw, rfl⟩

/-- Pass `j` of bit `k`'s window drives the symbol of the bit. -/
theorem run_bit_driven (h : SessionDue s) {k j : Nat} (hk : k < s.activeBitCount) (hj : j < 10) :
    ∃ u, run (3 + 11 * k + j) s = .next u ∧ u.driven = some (windowLevel (bufBit Config.params s k) j) := by
  obtain ⟨w, hw⟩ := run_windowDue h hk
  rw [show 3 + 11 * k + j = 2 + 11 * k + (j + 1) by omega, run_add_of_next hw]
  exact run_window_driven (windowDue_due h k w) hj

/-- The pass after a window fetches the next bit or diverts to the gap, and drives nothing. -/
theorem run_after_window_driven (h : SessionDue s) {k : Nat} (hk : k < s.activeBitCount) :
    ∃ u, run (13 + 11 * k) s = .next u ∧ u.driven = none := by
  obtain hlt | hlast : k + 1 < s.activeBitCount ∨ s.activeBitCount = k + 1 := by omega
  · obtain ⟨w, hw⟩ := run_windowDue h hlt
    rw [show 13 + 11 * k = 2 + 11 * (k + 1) by omega]
    exact ⟨_, hw, rfl⟩
  · obtain ⟨u, hu, -, -, hd⟩ := run_gapDue h
    rw [hlast, gapStart, if_neg (by omega)] at hu
    rw [show 13 + 11 * k = 2 + 11 * (k + 1) by omega]
    exact ⟨u, hu, hd⟩

/-- The passes of the gap drive LOW. -/
theorem run_gap_driven (h : SessionDue s) (hn : 0 < s.activeBitCount) {k : Nat}
    (hk : 3 + 11 * s.activeBitCount ≤ k) (hk' : k ≤ sessionTicks s.activeBitCount) :
    ∃ u, run k s = .next u ∧ u.driven = some .low := by
  have hstart : gapStart s.activeBitCount = 2 + 11 * s.activeBitCount := if_neg (by omega)
  obtain ⟨g, rfl⟩ : ∃ g, k = gapStart s.activeBitCount + g := ⟨k - gapStart s.activeBitCount, by omega⟩
  rw [sessionTicks_eq] at hk'
  obtain ⟨u, hu, hx⟩ := run_gap_shown h (g := g) (by omega)
  exact ⟨u, hu, (congrArg (·.2.2.2) hx).trans (gapShown_driven (by omega))⟩

/-- What ticks alone drive is what a session's tick drives. -/
theorem atTick_driven {q : State} (h : SessionStart q s) {k : Nat} {d : Option Level}
    (hk : k ≤ sessionTicks s.activeBitCount)
    (hu : ∃ u, run k { s with schedule := [], program := [] } = .next u ∧ u.driven = d) :
    ∃ v, atTick k s = .next v ∧ v.driven = d := by
  obtain ⟨u, hu, hd⟩ := hu
  obtain ⟨r, ws, ts, hv⟩ := atTick_of_sessionStart h hk hu
  exact ⟨_, hv, hd⟩

end Drives

/-- Settles O53: a session's ticks drive what ticks alone drive, in the entry, in and after each window, and in the
gap. -/
theorem passesDriveTheSymbolsInOrder : Obligations.PassesDriveTheSymbolsInOrder := by
  intro q s h hn
  have hd := sessionDue_of_sessionStart h
  refine ⟨fun k hk hk' => ?_, fun k j hk hj => ?_, fun k hk => ?_, fun k hk hk' => ?_⟩
  · exact atTick_driven h (hk'.trans (two_le_sessionTicks _)) (run_entry_driven hd hn hk hk')
  · have hle := two_add_le_sessionTicks hk (j := j + 1) (by omega)
    exact atTick_driven h (by omega) (run_bit_driven hd hk hj)
  · have hle := two_add_le_sessionTicks hk (j := 11) le_rfl
    exact atTick_driven h (by omega) (run_after_window_driven hd hk)
  · exact atTick_driven h hk' (run_gap_driven hd hn hk hk')

end Sys2Proof.Proofs

/-!
SUPPORT. The proofs of the family `40_frame_buffer_and_arming.md`: what `BUFWR`, `SETLEN` and `START` write and refuse
(R80 to R82), and `POLL`s among the ticks (R84).
-/

namespace Sys2Proof.Proofs

open Sys2Proof.Machine Sys2Proof.Safety

/-! ## A tick answers in every state of the invariant (R90) -/

section Answers

variable {s : State}

/-- A frame bit that is still to be sent lies in the buffer, so its fetch raises no V3. -/
theorem bitIndex_lt_bufBits (hlen : LenOk s) (hle : s.bitIndex ≤ s.activeBitCount)
    (hne : s.bitIndex ≠ s.activeBitCount) : s.bitIndex < bufBits Config.params :=
  (Nat.lt_of_le_of_ne hle hne).trans_le hlen

theorem tStartbit_answers (h : EngineInv s) (hs : s.session = .sending) (hp : s.bitPhase = .startBit) :
    ∃ t, tStartbit Config.params s = .next t := by
  have h0 : s.bitIndex = 0 := by simpa [ProgressOk, hs, hp] using h.progress
  by_cases hb : s.bitIndex = s.activeBitCount
  · exact ⟨_, tStartbit_eq_next.2 ⟨h.legal, ⟨hs, hp⟩, .inl ⟨hb, rfl⟩⟩⟩
  · have hk := bitIndex_lt_bufBits h.len (by omega) hb
    exact ⟨_, tStartbit_eq_next.2 ⟨h.legal, ⟨hs, hp⟩, .inr ⟨hb, hk, rfl⟩⟩⟩

theorem tShape_answers {P : Params} (hl : legal P s = true) (hs : s.session = .sending) (hp : s.bitPhase = .sending) :
    ∃ t, tShape P s = .next t := by
  by_cases hc : s.pulseTicks + 1 = threshold s.currentBit s.half
  · cases hh : s.half with
    | high => exact ⟨_, tShape_eq_next.2 ⟨hl, ⟨hs, hp⟩, .inr (.inl ⟨hc, hh, rfl⟩)⟩⟩
    | low => exact ⟨_, tShape_eq_next.2 ⟨hl, ⟨hs, hp⟩, .inr (.inr ⟨hc, hh, rfl⟩)⟩⟩
  · exact ⟨_, tShape_eq_next.2 ⟨hl, ⟨hs, hp⟩, .inl ⟨hc, rfl⟩⟩⟩

theorem tNextbit_answers (h : EngineInv s) (hs : s.session = .sending) (hp : s.bitPhase = .nextBit) :
    ∃ t, tNextbit Config.params s = .next t := by
  have hle : s.bitIndex ≤ s.activeBitCount := by simpa [ProgressOk, hs, hp] using h.progress
  by_cases hb : s.bitIndex = s.activeBitCount
  · exact ⟨_, tNextbit_eq_next.2 ⟨h.legal, ⟨hs, hp⟩, .inl ⟨hb, rfl⟩⟩⟩
  · have hk := bitIndex_lt_bufBits h.len hle hb
    exact ⟨_, tNextbit_eq_next.2 ⟨h.legal, ⟨hs, hp⟩, .inr ⟨hb, hk, rfl⟩⟩⟩

theorem tGap_answers {P : Params} (hl : legal P s = true) (hs : s.session = .resetGap) : ∃ t, tGap P s = .next t := by
  by_cases hg : s.gapTicks + 1 = P.resetTicks
  · exact ⟨_, tGap_eq_next.2 ⟨hl, hs, .inl ⟨hg, rfl⟩⟩⟩
  · exact ⟨_, tGap_eq_next.2 ⟨hl, hs, .inr ⟨hg, rfl⟩⟩⟩

/-- The arm that a state of the invariant selects answers. -/
theorem exec_tickArm_answers (h : EngineInv s) : ∃ t, exec (tickArm s) s = .next t := by
  unfold tickArm
  split
  next hs => exact ⟨_, tIdle_eq_next.2 ⟨h.legal, hs, rfl⟩⟩
  next hs hp => exact ⟨_, tEntry_eq_next.2 ⟨h.legal, ⟨hs, hp⟩, rfl⟩⟩
  next hs hp => exact tStartbit_answers h hs hp
  next hs hp => exact tShape_answers h.legal hs hp
  next hs hp => exact tNextbit_answers h hs hp
  next hs => exact tGap_answers h.legal hs

/-- Ticks alone never stop: each answers, and keeps the invariant. -/
theorem run_answers_of_ticksOnly (h : EngineInv s) (ht : TicksOnly s) (k : Nat) : ∃ u, run k s = .next u := by
  induction k generalizing s with
  | zero => exact ⟨s, rfl⟩
  | succ k ih =>
    obtain ⟨t, hx⟩ := exec_tickArm_answers h
    have hst : step s = .next t := (step_of_ticksOnly ht).trans hx
    rw [run_succ, hst, andThen_next]
    exact ih (inv_exec h hx) (ticksOnly_of_step ht hst)

end Answers

/-- The invariant does not look at what is still to come. -/
theorem inv_withHostSide {s : State} (h : EngineInv s) (r : BitVec 2) (ws : List HostWord) (ts : List Turn) :
    EngineInv (withHostSide r ws ts s) :=
  ⟨h.legal, h.memory, h.len, h.progress, h.fetch, h.line, h.window⟩

/-- Settles O55: ticks alone answer from a state of the invariant, and `POLL`s among them change the host's side
alone. -/
theorem pollsDoNotDisturbTheEngine : Obligations.PollsDoNotDisturbTheEngine := by
  intro n j s h hr hq hj
  have ht : TicksOnly (withHostSide s.hRdata [] [] s) := ⟨hr, rfl⟩
  obtain ⟨u, hu⟩ := run_answers_of_ticksOnly (inv_withHostSide h _ _ _) ht (ticksBy j s.schedule)
  obtain ⟨r, ws, hrun⟩ := run_withHostSide s.schedule s.hRdata s.program ht hq hj hu
  exact ⟨_, u, hrun, hu, rfl⟩

/-! ## The host port's writes and what they refuse (R80, R81, R82) -/

section Writes

variable {P : Params}

/-- V4 comes before the busy test (R80). -/
theorem bufwr_of_bufCap_le {i : Nat} (hi : P.bufCap ≤ i) (v : Byte) (s : State) :
    bufwr P i v s = raise (.addrRange i) s :=
  if_pos hi

/-- V3 comes before the busy test (R81). -/
theorem setlen_of_bufBits_lt {n : Nat} (hn : bufBits P < n) (s : State) : setlen P n s = raise (.lenRange n) s :=
  if_pos hn

theorem execStart_of_busy {s : State} (hs : busy s) : execStart s = raise (.rearmBusy s.session) s :=
  if_pos hs

end Writes

/-- Settles O14: the answer is the state with byte `i` written; the range is tested before `session`. -/
theorem bufwrStoresExactlyOneByte : Obligations.BufwrStoresExactlyOneByte := by
  intro i v s
  refine ⟨fun _ => rfl, fun hi hs => ?_, fun hi => bufwr_of_bufCap_le hi v s, fun hi hs => bufwr_of_busy hi hs v⟩
  exact ⟨writeByte Config.params i v s, bufwr_eq_next.2 ⟨hi, hs, rfl⟩, rfl, readByte_writeByte Config.params i v s⟩

/-- Settles O15: the answer is the state with the length written; the range is tested before `session`. -/
theorem setlenWritesTheLength : Obligations.SetlenWritesTheLength := fun _ s =>
  ⟨fun _ _ => rfl, fun hn hs => setlen_eq_next.2 ⟨hn, hs, rfl⟩, fun hn => setlen_of_bufBits_lt hn s,
    fun hn hs => setlen_of_busy hn hs⟩

/-- Settles O16: `START` answers from Idle alone. -/
theorem startArmsTheEngine : Obligations.StartArmsTheEngine := fun _ =>
  ⟨fun _ _ _ => rfl, fun hs => execStart_eq_next.2 ⟨hs, rfl⟩, fun hs => execStart_of_busy hs⟩

end Sys2Proof.Proofs

/-!
SUPPORT. The proofs of the family `41_timing_engine.md`: what the arms `T_IDLE`, `T_ENTRY`, `T_STARTBIT`, `T_SHAPE` and
`T_GAP` answer (R91 to R94, R96), a tick never stops (R90, R98), the reset gap and the line after the last HIGH (R102).
-/

namespace Sys2Proof.Proofs

open Sys2Proof.Machine Sys2Proof.Safety

/-! ## `T_SHAPE` (R94) -/

theorem halfLevel_eq (half : Half) : halfLevel half = if half = .high then .high else .low := by
  cases half <;> rfl

/-- Settles O25: the pass answers, and its three ways exclude each other. -/
theorem shapeTickDrivesAndCounts : Obligations.ShapeTickDrivesAndCounts := by
  intro s hl hs hp
  obtain ⟨t, ht⟩ := tShape_answers hl hs hp
  refine ⟨t, ht, ?_⟩
  obtain ⟨-, -, ⟨hne, rfl⟩ | ⟨heq, hh, rfl⟩ | ⟨heq, hh, rfl⟩⟩ := tShape_eq_next.1 ht
  · refine ⟨fun _ => ?_, fun heq => absurd heq hne, fun heq => absurd heq hne⟩
    rw [← halfLevel_eq]
    rfl
  · refine ⟨fun hne => absurd heq hne, fun _ _ => ?_, fun _ hlow => by simp [hh] at hlow⟩
    rw [shapeDrive, hh]
    rfl
  · refine ⟨fun hne => absurd heq hne, fun _ hhigh => by simp [hh] at hhigh, fun _ _ => ?_⟩
    rw [shapeDrive, hh]
    rfl

/-! ## A tick never stops (R90, R98) -/

/-- Spending the turn does not change which arm a tick runs. -/
@[simp] theorem tickArm_fetchRest (s : State) : tickArm (fetchRest s) = tickArm s := by simp [tickArm]

/-- Settles O45: the selected arm answers in every state of the invariant, whatever turns are left. -/
theorem tickNeverStops : Obligations.TickNeverStops := by
  intro s h hr ht
  have hanswers := exec_tickArm_answers (inv_fetchRest h)
  rwa [tickArm_fetchRest, ← step_of_tickTurn hr ht] at hanswers

/-! ## The reset gap and the line after the last HIGH (R96, R102) -/

/-- A state of the table in which the gap has run no tick, with only ticks to come, is at the start of the gap. -/
theorem gapDue_of_legal {s : State} (ht : TicksOnly s) (hl : Legal s) (hs : s.session = .resetGap)
    (hg : s.gapTicks = 0) : GapDue s := by
  obtain ⟨h, -⟩ | ⟨h, -⟩ | ⟨h, -⟩ | ⟨-, hp, hh, hc, -⟩ := legal_iff.1 hl
  · simp [hs] at h
  · simp [hs] at h
  · simp [hs] at h
  · exact ⟨ht, hs, hp, hh, hc, hg⟩

/-- Settles O51: by ticks alone the gap counts up to its last tick and ends with it, and `POLL`s leave the engine's run
alone. -/
theorem resetGapHoldsTheLineLow : Obligations.ResetGapHoldsTheLineLow := by
  intro s hr hl hq hs hg k hk hk'
  have hdue : GapDue { s with schedule := [], program := [] } := gapDue_of_legal ⟨hr, rfl⟩ hl hs hg
  obtain hlt | rfl := Nat.lt_or_eq_of_le hk'
  · obtain ⟨g, rfl⟩ := Nat.exists_eq_add_one.2 hk
    obtain ⟨r, ws, ts, ht⟩ := atTick_of_run hr hq hk' (run_inGap hdue hlt)
    exact ⟨_, ht, rfl, rfl, fun _ => ⟨hs, rfl⟩, fun heq => absurd heq (Nat.ne_of_lt hlt)⟩
  · obtain ⟨r, ws, ts, ht⟩ := atTick_of_run hr hq hk' (run_gapEnded hdue)
    exact ⟨_, ht, rfl, rfl, fun hlt => absurd hlt (Nat.lt_irrefl _), fun _ => ⟨rfl, rfl⟩⟩

theorem gapShown_line (g : Nat) : (gapShown g).1 = .low := by
  unfold gapShown
  split
  · rfl
  · split <;> rfl

/-- From the tick that leads to it, the gap shows LOW to the end of the session. -/
theorem atTick_gap_line {q s : State} (h : SessionStart q s) {k : Nat} (hk : gapStart s.activeBitCount ≤ k)
    (hk' : k ≤ sessionTicks s.activeBitCount) : ∃ u, atTick k s = .next u ∧ u.line = .low := by
  obtain ⟨g, rfl⟩ := Nat.exists_eq_add_of_le hk
  have hg : g ≤ Config.params.resetTicks := by
    rw [sessionTicks_eq] at hk'
    omega
  obtain ⟨u, hu, hx⟩ := run_gap_shown (sessionDue_of_sessionStart h) hg
  obtain ⟨v, hv, hvu⟩ := atTick_shown h hk' hu
  exact ⟨v, hv, (congrArg (·.1) (hvu.trans hx)).trans (gapShown_line g)⟩

/-- Settles O52: the last HIGH is the last HIGH pass of the last bit; what is left of its eleven ticks is LOW (R101),
and so is the gap. -/
theorem lineIsLowFromTheLastHighToIdle : Obligations.LineIsLowFromTheLastHighToIdle := by
  intro q s n h hn
  obtain ⟨-, hbits⟩ := wireShowsElevenTicksPerBit q s h
  have hpos := threshold_pos (bufBit Config.params s n) .high
  have hsum := threshold_high_add_low (bufBit Config.params s n)
  have hgap : gapStart (n + 1) = 2 + 11 * (n + 1) := if_neg (by omega)
  refine ⟨2 + 11 * n + threshold (bufBit Config.params s n) .high, ?_, ?_, fun k hk hk' => ?_⟩
  · rw [sessionTicks_eq, hgap]
    omega
  · obtain ⟨u, hu, hl⟩ := hbits n _ (by omega) hpos (by omega)
    exact ⟨u, hu, hl.trans (if_pos le_rfl)⟩
  · rcases Nat.lt_or_ge k (gapStart (n + 1)) with hlt | hge
    · obtain ⟨j, rfl⟩ : ∃ j, k = 2 + 11 * n + j := ⟨k - (2 + 11 * n), by omega⟩
      obtain ⟨u, hu, hl⟩ := hbits n j (by omega) (by omega) (by omega)
      exact ⟨u, hu, hl.trans (if_neg (by omega))⟩
    · exact atTick_gap_line h (hn ▸ hge) (hn ▸ hk')

/-! ## Ticks while Idle (R91) -/

theorem decodeTick_idle : ∀ p : BitVec 2, decode (.tick (0b00#2 ++ p)) = .ok .tIdle := by decide

/-- A tick of a legal Idle state only begins a pass. -/
theorem step_of_idle {s : State} (ht : TicksOnly s) (hl : Legal s) (hs : s.session = .idle) :
    step s = .next (beginPass s) := by
  have ha : tickArm s = .tIdle := by simp only [tickArm, hs]
  rw [step_of_ticksOnly ht, ha]
  exact tIdle_eq_next.2 ⟨hl, hs, rfl⟩

/-- Beginning a second pass changes nothing, so any number of ticks does what one does. -/
theorem run_succ_of_idle {s : State} (ht : TicksOnly s) (hl : Legal s) (hs : s.session = .idle) (k : Nat) :
    run (k + 1) s = .next (beginPass s) := by
  induction k with
  | zero => exact run_succ_of_next (run_zero s) (step_of_idle ht hl hs)
  | succ k ih => exact run_succ_of_next ih (step_of_idle (s := beginPass s) ht hl hs)

/-- Settles O22: selectors 00xx are `T_IDLE`'s, and `T_IDLE` only begins a pass. -/
theorem idleTicksAreInert : Obligations.IdleTicksAreInert := by
  refine ⟨decodeTick_idle, fun s hl hs => ⟨tIdle_eq_next.2 ⟨hl, hs, rfl⟩, fun k hr hsched hk => ?_⟩⟩
  obtain ⟨k, rfl⟩ := Nat.exists_eq_add_one.2 hk
  exact run_succ_of_idle ⟨hr, hsched⟩ hl hs k

/-! ## `T_ENTRY`, `T_STARTBIT` and `T_GAP` (R92, R93, R96) -/

/-- Settles O23: the frame bit loaded is bit 0 of `buf[0]`, and the buffer is not empty. -/
theorem entryTickInitialises : Obligations.EntryTickInitialises :=
  ⟨rfl, bufCap_pos _, fun s hl hs hp =>
    tEntry_eq_next.2 ⟨hl, ⟨hs, hp⟩, by rw [bufBit_eq Config.params s 0]; rfl⟩⟩

/-- What `T_STARTBIT` loads is bit 0 of byte `k / 8` (D21). -/
theorem bufBitZero_eq (P : Params) (s : State) (k : Nat) :
    bufBitZero P s k = if (readByte P s (k / 8)).getLsbD 0 then .one else .zero :=
  bitOf_eq _ _

/-- Settles O24: the three ways through the arm. -/
theorem startbitTickLoadsOrDiverts : Obligations.StartbitTickLoadsOrDiverts := by
  intro s hl hs hp
  refine ⟨fun hb => ?_, fun hb hk => ?_, fun hb hk => ?_⟩
  · exact tStartbit_eq_next.2 ⟨hl, ⟨hs, hp⟩, .inl ⟨hb, rfl⟩⟩
  · rw [← bufBitZero_eq]
    exact tStartbit_eq_next.2 ⟨hl, ⟨hs, hp⟩, .inr ⟨hb, hk, rfl⟩⟩
  · show tStartbit Config.params s = _
    rw [tStartbit, runPass_of_legal hl ⟨hs, hp⟩]
    exact (if_neg hb).trans (fetching_of_le hk _ _)

/-- Settles O27: the two ways through the arm. -/
theorem gapTickDrivesLowAndCounts : Obligations.GapTickDrivesLowAndCounts := fun _ hl hs =>
  ⟨fun hne => tGap_eq_next.2 ⟨hl, hs, .inr ⟨hne, rfl⟩⟩, fun heq => tGap_eq_next.2 ⟨hl, hs, .inl ⟨heq, rfl⟩⟩⟩

end Sys2Proof.Proofs

/-!
SUPPORT. The proofs of the family `60_exceptions.md`: what an operation that raises a violation raises and carries
(R111, R112), the mark (R112), and who writes the block in which phase (R120).
-/

namespace Sys2Proof.Proofs

open Sys2Proof.Machine Sys2Proof.Safety

/-! ## Raised violations (R111, R112) -/

/-- Where the answer `o` raises a violation, it is not V6, and the state it carries is `s` with the mark set. -/
def MarksOnly (s : State) (o : Out) : Prop :=
  ∀ v m, o = .refused (.violation v m) → v ≠ .tickOverrun ∧ m = mark v s

section Marks

variable {P : Params} {s : State}

theorem marksOnly_next (s t : State) : MarksOnly s (.next t) := by
  intro v m h
  cases h

theorem marksOnly_raise {v : Violation} (s : State) (hv : v ≠ .tickOverrun := by simp) : MarksOnly s (raise v s) := by
  intro w m h
  cases h
  exact ⟨hv, rfl⟩

theorem MarksOnly.ite {c : Prop} [Decidable c] {o o' : Out} (h : MarksOnly s o) (h' : MarksOnly s o') :
    MarksOnly s (if c then o else o') := by
  split
  · exact h
  · exact h'

/-- A fetch adds V3 to what the rest of the pass raises. -/
theorem MarksOnly.fetching {k : Nat} {o : Out} (h : MarksOnly s o) : MarksOnly s (fetching P k s o) :=
  .ite h (marksOnly_raise s)

/-- A pass adds V7 to what its arm's body raises. -/
theorem MarksOnly.runPass {sel : Prop} [Decidable sel] {body : State → Out} (h : MarksOnly s (body (beginPass s))) :
    MarksOnly s (runPass P sel s body) := by
  intro v m hraise
  obtain ⟨-, rfl, rfl⟩ | ⟨-, -, hbody⟩ := runPass_eq_violation hraise
  · exact ⟨by simp, rfl⟩
  · exact h v m hbody

theorem execReset_marksOnly : MarksOnly s (execReset s) := by
  refine .ite (fun v m h => ?_) (marksOnly_next _ _)
  cases h

theorem bufwr_marksOnly {i : Nat} {v : Byte} : MarksOnly s (bufwr P i v s) :=
  .ite (marksOnly_raise s) (.ite (marksOnly_raise s) (marksOnly_next _ _))

theorem setlen_marksOnly {n : Nat} : MarksOnly s (setlen P n s) :=
  .ite (marksOnly_raise s) (.ite (marksOnly_raise s) (marksOnly_next _ _))

theorem execStart_marksOnly : MarksOnly s (execStart s) := .ite (marksOnly_raise s) (marksOnly_next _ _)

/-- `ARM` raises V5 before its primitives, and what these raise the first of them raises: no byte is written. -/
theorem arm_marksOnly {n : Nat} {colors : List Byte} : MarksOnly s (arm P n colors s) := by
  by_cases hargs : P.maxLeds < n ∨ colors.length ≠ armBytes n
  · rw [arm, if_pos hargs]
    exact marksOnly_raise s
  · obtain ⟨hn, hc⟩ : n ≤ P.maxLeds ∧ colors.length = armBytes n := by omega
    by_cases hs : s.session = .idle
    · obtain ⟨t, ht⟩ := arm_answers hn hc hs
      rw [ht]
      exact marksOnly_next s t
    · rw [arm_of_busy hn hc hs]
      exact marksOnly_raise s

theorem tIdle_marksOnly : MarksOnly s (tIdle P s) := .runPass (marksOnly_next _ _)

theorem tEntry_marksOnly : MarksOnly s (tEntry P s) := .runPass (marksOnly_next _ _)

theorem tStartbit_marksOnly : MarksOnly s (tStartbit P s) :=
  .runPass (.ite (marksOnly_next _ _) (.fetching (marksOnly_next _ _)))

theorem tShape_marksOnly : MarksOnly s (tShape P s) := by
  refine .runPass (.ite ?_ (marksOnly_next _ _))
  split <;> exact marksOnly_next _ _

theorem tNextbit_marksOnly : MarksOnly s (tNextbit P s) :=
  .runPass (.ite (marksOnly_next _ _) (.fetching (marksOnly_next _ _)))

theorem tGap_marksOnly : MarksOnly s (tGap P s) := .runPass (.ite (marksOnly_next _ _) (marksOnly_next _ _))

/-- A symbol raises a violation in the first of its passes or not at all: from a window's start in the table all ten
answer. -/
theorem shapeWindow_marksOnly {bit : FrameBit} : MarksOnly s (shapeWindow Config.params bit s) := by
  by_cases hw : atWindowStart bit s
  · by_cases hl : Legal s
    · rw [shapeWindow_of_legal hl hw]
      exact marksOnly_next _ _
    · have hpass : tShape Config.params s = raise (.illegalState (stateTuple s)) s := if_neg hl
      rw [shapeWindow, if_pos hw, Config.bitWindow, shapePasses, hpass, andThen_raise]
      exact marksOnly_raise s
  · intro v m h
    rw [shapeWindow, if_neg hw] at h
    cases h

/-- What an operation that raises a violation did (R112): nothing but set the mark, and never to V6. -/
theorem exec_marksOnly (i : Instr) (s : State) : MarksOnly s (exec i s) := by
  cases i with
  | reset => exact execReset_marksOnly
  | poll => exact marksOnly_next _ _
  | bufwr a v => exact bufwr_marksOnly
  | setlen n => exact setlen_marksOnly
  | start => exact execStart_marksOnly
  | arm n colors => exact arm_marksOnly
  | tIdle => exact tIdle_marksOnly
  | tEntry => exact tEntry_marksOnly
  | tStartbit => exact tStartbit_marksOnly
  | tShape => exact tShape_marksOnly
  | tNextbit => exact tNextbit_marksOnly
  | tGap => exact tGap_marksOnly
  | sym0 => exact shapeWindow_marksOnly
  | sym1 => exact shapeWindow_marksOnly

end Marks

/-- Settles O38: whatever the operation raises, it carries the state with the mark set. -/
theorem violationChangesOnlyTheMark : Obligations.ViolationChangesOnlyTheMark :=
  fun i s v m h => (exec_marksOnly i s v m h).2

/-- Settles O40: each place that raises a violation raises another one than V6. -/
theorem overrunIsNeverRaised : Obligations.OverrunIsNeverRaised :=
  fun i s m h => (exec_marksOnly i s _ m h).1 rfl

/-! ## The mark is sticky (R112) -/

/-- An operation other than `RESET` is the host port's or the engine's. -/
theorem hostOperation_or_engineOperation {i : Instr} (hi : i ≠ .reset) :
    (i = .poll ∨ (∃ a v, i = .bufwr a v) ∨ (∃ n, i = .setlen n) ∨ i = .start ∨ ∃ n colors, i = .arm n colors) ∨
      i ∈ [Instr.tIdle, .tEntry, .tStartbit, .tShape, .tNextbit, .tGap, .sym0, .sym1] := by
  cases i <;> simp at hi ⊢

theorem exec_violation {i : Instr} {s t : State} (hi : i ≠ .reset) (h : exec i s = .next t) :
    t.violation = s.violation := by
  obtain hhost | hengine := hostOperation_or_engineOperation hi
  · obtain ⟨-, -, -, -, -, -, -, -, -, -, hv, -⟩ := hostOperationsLeaveTheEngineAlone i s t hhost h
    exact hv
  · obtain ⟨-, -, -, hv, -⟩ := engineOperationsLeaveTheFrameAlone i s t hengine h
    exact hv

theorem step_of_marked {s : State} {v : Violation} (h : s.violation = some v) :
    step s = .refused (.violation v s) := by
  simp only [step, h]

/-- Settles O39: neither the host port's operations nor the engine's write the mark, and a step looks at it first. -/
theorem violationMarkIsSticky : Obligations.ViolationMarkIsSticky :=
  ⟨fun _ _ _ h hi => exec_violation hi h, fun _ _ h => step_of_marked h⟩

/-! ## Phase ownership (R120) -/

/-- Spending the turn, answering a `POLL` and beginning a pass write none of the ten items. -/
theorem sameBlock_fetchRest_with (s : State) (r : BitVec 2) (d : Option Level) :
    SameBlock s { fetchRest s with hRdata := r, driven := d } :=
  ⟨fetchRest_session s, fetchRest_bitPhase s, fetchRest_currentBit s, fetchRest_half s, fetchRest_pulseTicks s,
    fetchRest_bitIndex s, fetchRest_gapTicks s, fetchRest_line s, fetchRest_activeBitCount s, fetchRest_buf s⟩

/-- A foreground turn runs the operation of the word presented. -/
theorem step_of_foregroundTurn {s : State} (hr : Running s) (h : ForegroundTurn s) :
    step s = exec (decodeHost (s.program.headD idlePort)) (fetchRest s) := by
  have hd : decode (fetchWord s) = .ok (decodeHost (s.program.headD idlePort)) := by
    rw [fetchWord_of_foregroundTurn h]
    rfl
  exact (stepRunsTheDecodedInstruction s _ hr.1 hd (.inl hr.2)).1

/-- While Idle a tick runs `T_IDLE`. -/
theorem step_eq_next_of_idle_tick {s t : State} (hr : Running s) (hturn : TickTurn s) (hs : s.session = .idle)
    (h : step s = .next t) : t = beginPass (fetchRest s) := by
  have harm : tickArm s = .tIdle := by simp only [tickArm, hs]
  rw [step_of_tickTurn hr hturn, harm] at h
  obtain ⟨-, -, ht⟩ := tIdle_eq_next.1 h
  exact ht

/-- While busy a foreground turn that is answered is a `POLL`. -/
theorem step_eq_next_of_busy_foreground {s t : State} (hr : Running s) (hturn : ForegroundTurn s) (hs : busy s)
    (h : step s = .next t) : t = { fetchRest s with hRdata := s.session.code } := by
  rw [step_of_foregroundTurn hr hturn] at h
  rw [busy, ← fetchRest_session] at hs
  rw [← fetchRest_session s]
  obtain ht | ⟨hidle, -⟩ | ⟨hidle, -⟩ | ⟨hidle, -⟩ := exec_decodeHost_cases h
  · exact ht
  all_goals exact absurd hidle hs

/-- Settles O37: a tick while Idle begins a pass and no more, and a word while busy is answered if it is a `POLL`. -/
theorem eachPhaseHasOneWriter : Obligations.EachPhaseHasOneWriter := by
  intro s t hb h
  have hr : Running s := ⟨(step_eq_next.1 h).1, hb⟩
  refine ⟨fun hturn hs => ?_, fun hturn hs => ?_⟩
  · rw [step_eq_next_of_idle_tick hr hturn hs h]
    exact sameBlock_fetchRest_with s _ none
  · rw [step_eq_next_of_busy_foreground hr hturn hs h]
    exact sameBlock_fetchRest_with s _ _

end Sys2Proof.Proofs

/-!
SUPPORT. The proofs of the family `70_reset_and_hazards.md`: a second `RESET` (R130), and the session of the empty
frame (R144).
-/

namespace Sys2Proof.Proofs

open Sys2Proof.Machine Sys2Proof.Safety

/-! ## `RESET` is applied once (R130) -/

/-- Settles O12: `RESET` looks at nothing but whether it has been applied. -/
theorem secondResetIsRefused : Obligations.SecondResetIsRefused := fun _ hb => if_pos hb

/-! ## The session of the empty frame (R144) -/

theorem gapShown_driven_ne_high (g : Nat) : (gapShown g).2.2.2 ≠ some .high := by
  obtain rfl | hg := Nat.eq_zero_or_pos g
  · simp [gapShown]
  · simp [gapShown_driven hg]

theorem gapShown_bitPhase (g : Nat) : (gapShown g).2.2.1 = .idle := by
  unfold gapShown
  split
  · rfl
  · split <;> rfl

/-- By ticks alone the empty frame passes its entry and its completion test, which touch nothing, and then is in the
gap. -/
theorem run_emptyFrame_drives_no_high {s : State} (h : SessionDue s) (hn : s.activeBitCount = 0) {k : Nat}
    (hk : 0 < k) (hk' : k ≤ sessionTicks 0) :
    ∃ u, run k s = .next u ∧ u.line = .low ∧ u.driven ≠ some .high ∧ u.bitPhase ≠ .sending := by
  obtain rfl | ⟨-, rfl⟩ | ⟨i, hi, -⟩ | ⟨i, p, hi, -⟩ | ⟨g, hg, rfl⟩ := sessionTick_cases hk hk'
  · exact ⟨_, run_entered h, h.line, by simp [entered], by simp [entered]⟩
  · exact ⟨_, run_two_of_empty h hn, h.line, by simp [entered], by simp⟩
  · exact absurd hi (Nat.not_lt_zero i)
  · exact absurd hi (Nat.not_lt_zero i)
  · obtain ⟨u, hu, hx⟩ := run_gap_shown h hg
    have hl : u.line = .low := (congrArg (·.1) hx).trans (gapShown_line g)
    have hd : u.driven = (gapShown g).2.2.2 := congrArg (·.2.2.2) hx
    have hp : u.bitPhase = .idle := (congrArg (·.2.2.1) hx).trans (gapShown_bitPhase g)
    exact ⟨u, hn ▸ hu, hl, hd ▸ gapShown_driven_ne_high g, by simp [hp]⟩

/-- Settles O50: `POLL`s leave the engine's run alone, and by ticks alone the empty frame shows no HIGH; at tick 0 the
engine is still as the quiescent state left it. -/
theorem emptyFrameDrivesNoHigh : Obligations.EmptyFrameDrivesNoHigh := by
  intro q s h hn k hk
  have hd := sessionDue_of_sessionStart h
  obtain rfl | hpos := Nat.eq_zero_or_pos k
  · have hp : s.bitPhase = .idle := hd.bitPhase
    exact ⟨s, by simp [atTick], hd.line, fun hlt => absurd hlt (Nat.lt_irrefl 0), by simp [hp]⟩
  · obtain ⟨u, hu, hl, hdr, hp⟩ := run_emptyFrame_drives_no_high hd hn hpos hk
    obtain ⟨r, ws, ts, ht⟩ := atTick_of_sessionStart h (hn ▸ hk) hu
    exact ⟨_, ht, hl, fun _ => hdr, hp⟩

end Sys2Proof.Proofs

/-!
SUPPORT. The proofs of the family 'other': what makes an operation the very next one (log 20), what stops a step or an
operation by name (log 5, log 13, log 15, log 28), and the reset values (R35, R130).
-/

namespace Sys2Proof.Proofs

open Sys2Proof.Machine Sys2Proof.Safety

/-! ## Only operations with a word are decoded (R60, R72) -/

section Decoded

variable {i : Instr}

theorem encodeWord_decodeHost_ne_none (w : HostWord) : encodeWord (decodeHost w) ≠ none := by
  obtain h | ⟨a, v, h⟩ | ⟨n, h⟩ | h := decodeHost_cases w <;> simp [h, encodeWord]

/-- A selector decodes to an arm of the table of R65. -/
theorem encodeWord_ne_none_of_decodeTick {sel : BitVec 4} (h : decodeTick sel = .ok i) : encodeWord i ≠ none := by
  have hrows : ∀ row ∈ tickRows, encodeWord row.2.2 ≠ none := by decide
  unfold decodeTick at h
  split at h
  · cases h
    exact hrows _ (List.mem_of_find?_eq_some ‹_›)
  · cases h

/-- `ARM` is decoded from no word. -/
theorem encodeWord_ne_none_of_decode {w : PortWord} (h : decode w = .ok i) : encodeWord i ≠ none := by
  cases w with
  | reset level =>
    simp only [decode] at h
    split at h
    · cases h
      simp [encodeWord]
    · cases h
  | host w =>
    cases h
    exact encodeWord_decodeHost_ne_none w
  | tick sel => exact encodeWord_ne_none_of_decodeTick h
  | symbol levels => obtain rfl | rfl := decodeSymbol_eq_ok h <;> simp [encodeWord]

theorem encodeWord_ne_none_of_decodeTableWord {nbits w : Nat} (h : decodeTableWord nbits w = some i) :
    encodeWord i ≠ none := by
  unfold decodeTableWord at h
  split at h
  · cases h
  · split at h
    · cases h
      exact encodeWord_ne_none_of_decode ‹_›
    · cases h

end Decoded

/-! ## Placing an operation (log 20) -/

/-- In `p` the next step runs `i`, and behind the turn it spends stands what `s` had to come. -/
structure PlacedNext (i : Instr) (s p : State) : Prop where
  unmarked : NoViolation p
  mayRun : p.booted = true ∨ i = .reset
  decoded : decode (fetchWord p) = .ok i
  schedule : (fetchRest p).schedule = s.schedule
  program : (fetchRest p).program = s.program

section Placing

variable {i : Instr}

theorem placedNext_reset (s : State) : PlacedNext .reset s (place .reset s) := ⟨rfl, .inr rfl, rfl, rfl, rfl⟩

/-- A host operation is placed by its word at the port and the foreground context's turn. -/
theorem placedNext_placeHost (h : decodeHost (hostWordOf i) = i) (s : State) : PlacedNext i s (placeHost i s) :=
  ⟨rfl, .inl rfl, congrArg Except.ok h, rfl, rfl⟩

/-- A tick arm is placed by the state that selects it and a tick's turn. -/
theorem placedNext_placeTick {session : Session} {phase : BitPhase}
    (h : decode (.tick (selector session phase)) = .ok i) (s : State) : PlacedNext i s (placeTick session phase s) :=
  ⟨rfl, .inl rfl, h, rfl, rfl⟩

/-- A line symbol is placed by the turn that shows its levels. -/
theorem placedNext_placeSymbol {bit : FrameBit} (h : decodeSymbol (symbolLevels bit) = .ok i) (s : State) :
    PlacedNext i s (placeSymbol bit s) :=
  ⟨rfl, .inl rfl, h, rfl, rfl⟩

/-- Every operation with a word can be made the very next one. -/
theorem placedNext_place (h : encodeWord i ≠ none) (s : State) : PlacedNext i s (place i s) := by
  cases i with
  | reset => exact placedNext_reset s
  | poll => exact placedNext_placeHost rfl s
  | bufwr a v => exact placedNext_placeHost rfl s
  | setlen n => exact placedNext_placeHost rfl s
  | start => exact placedNext_placeHost rfl s
  | arm n colors => exact absurd rfl h
  | tIdle => exact placedNext_placeTick (decode_selector .idle .idle) s
  | tEntry => exact placedNext_placeTick (decode_selector .sending .idle) s
  | tStartbit => exact placedNext_placeTick (decode_selector .sending .startBit) s
  | tShape => exact placedNext_placeTick (decode_selector .sending .sending) s
  | tNextbit => exact placedNext_placeTick (decode_selector .sending .nextBit) s
  | tGap => exact placedNext_placeTick (decode_selector .resetGap .idle) s
  | sym0 => exact placedNext_placeSymbol rfl s
  | sym1 => exact placedNext_placeSymbol rfl s

theorem withFetchWord_of_decodeTableWord {nbits w : Nat} (h : decodeTableWord nbits w = some i) (s : State) :
    s.withFetchWord nbits w = place i s := by
  simp only [State.withFetchWord, placeTableWord, h]

end Placing

/-- Settles O7: the word's operation is not `ARM`, so it is placed, and the step runs what is placed. -/
theorem placedTableWordRunsNext : Obligations.PlacedTableWordRunsNext := by
  intro s nbits w i h
  have hp : PlacedNext i s (s.withFetchWord nbits w) := by
    rw [withFetchWord_of_decodeTableWord h]
    exact placedNext_place (encodeWord_ne_none_of_decodeTableWord h) s
  exact ⟨(stepRunsTheDecodedInstruction _ i hp.unmarked hp.decoded hp.mayRun).1, hp.schedule, hp.program⟩

/-! ## Stops by name -/

theorem runPass_of_unselected {P : Params} {sel : Prop} [Decidable sel] {s : State} (hl : legal P s = true)
    (hs : ¬ sel) (body : State → Out) : runPass P sel s body = .refused .armNotSelected := by
  rw [runPass, if_pos hl, if_neg hs]

/-- A state whose own selector does not pick `i` is at no selector that does. -/
theorem not_at_selector {session : Session} {phase : BitPhase} {i : Instr} {s : State}
    (hd : decode (.tick (selector s.session s.bitPhase)) ≠ .ok i)
    (h : decode (.tick (selector session phase)) = .ok i) : ¬ (s.session = session ∧ s.bitPhase = phase) := by
  rintro ⟨rfl, rfl⟩
  exact hd h

/-- Settles O31: each of the six arms is a pass, and the state is not where the selector picks it. -/
theorem unselectedArmIsRefused : Obligations.UnselectedArmIsRefused := by
  intro i s hi hl hd
  simp only [List.mem_cons, List.not_mem_nil, or_false] at hi
  obtain rfl | rfl | rfl | rfl | rfl | rfl := hi
  · have hs : s.session ≠ .idle := fun hs => not_at_selector hd (decode_selector .idle s.bitPhase) ⟨hs, rfl⟩
    exact (runPass_of_unselected hl hs _ : tIdle Config.params s = _)
  · have hs := not_at_selector hd (decode_selector .sending .idle)
    exact (runPass_of_unselected hl hs _ : tEntry Config.params s = _)
  · have hs := not_at_selector hd (decode_selector .sending .startBit)
    exact (runPass_of_unselected hl hs _ : tStartbit Config.params s = _)
  · have hs := not_at_selector hd (decode_selector .sending .sending)
    exact (runPass_of_unselected hl hs _ : tShape Config.params s = _)
  · have hs := not_at_selector hd (decode_selector .sending .nextBit)
    exact (runPass_of_unselected hl hs _ : tNextbit Config.params s = _)
  · have hs : s.session ≠ .resetGap :=
      fun hs => not_at_selector hd (decode_selector .resetGap s.bitPhase) ⟨hs, rfl⟩
    exact (runPass_of_unselected hl hs _ : tGap Config.params s = _)

theorem step_of_undecodable {s : State} {e : DecodeError} (hv : NoViolation s)
    (hd : decode (fetchWord s) = .error e) : step s = .refused (.undecodable e) := by
  simp only [step, hv, hd]

theorem step_of_not_booted {s : State} {i : Instr} (hv : NoViolation s) (hb : s.booted = false)
    (hd : decode (fetchWord s) = .ok i) (hi : i ≠ .reset) : step s = .refused .beforeReset := by
  have hmay : ¬ mayRun i s = true := by simp [mayRun, hb, hi]
  simp only [step, hv, hd, if_neg hmay]

/-- Settles O9: an unmarked step stops at a word that does not decode, and at an operation that may not run yet. -/
theorem undecodableOrEarlyWordsStop : Obligations.UndecodableOrEarlyWordsStop :=
  ⟨fun _ _ => step_of_undecodable, fun _ _ => step_of_not_booted⟩

theorem shapeWindow_of_elsewhere {bit : FrameBit} {s : State} (h : ¬ atWindowStart bit s) (P : Params) :
    shapeWindow P bit s = .refused .symbolNotNext :=
  if_neg h

/-- Settles O34: a symbol is a window of its bit, asked for away from the window's first pass. -/
theorem otherSymbolIsRefused : Obligations.OtherSymbolIsRefused :=
  fun _ => ⟨fun h => shapeWindow_of_elsewhere h _, fun h => shapeWindow_of_elsewhere h _⟩

/-! ## Reset (R35, R130) -/

/-- No byte is listed after reset, so every byte reads `buf_init`. -/
theorem readByte_reset (P : Params) (i : Nat) : readByte P State.reset i = P.bufInit i := rfl

/-- Settles O10, by reading the items off the state after reset. -/
theorem stateAfterResetHasTheSpecValues : Obligations.StateAfterResetHasTheSpecValues :=
  ⟨rfl, rfl, rfl, rfl, rfl, rfl, rfl, rfl, rfl, readByte_reset Config.params⟩

/-- Settles O11: the first `RESET` answers the reset state with the inputs of the state it is applied to. -/
theorem resetWritesEveryItem : Obligations.ResetWritesEveryItem :=
  fun _ hb => ⟨execReset_eq_next.2 ⟨hb, rfl⟩, rfl, rfl, rfl⟩

end Sys2Proof.Proofs
